-- ==== Sys2Proof/Word.lean ====
section
/-! DEFINITION. The value types of the spec (00_scope.md R8): words, bytes, levels, row indices, and the
row buffer's eight bytes (10_state.md R21, R23). -/

namespace Sys2Proof

/-- `Word32` (R8): a word of the producer command port; as a cell value, a two's-complement integer. -/
abbrev Word := BitVec 32

/-- `UInt8` (R8). -/
abbrev Byte := BitVec 8

/-- `UInt3` (R8): a row index, 0 to 7; its addition is modulo 8. -/
abbrev Row := BitVec 3

/-- `Bit` of an output line (R8): `false` is logical low (0), `true` is logical high (1). -/
abbrev Level := Bool

/-- The eight bytes of an image, entry r for row r (R21). The length is part of the type (R23). -/
abbrev Rows := Vector Byte 8

end Sys2Proof
end

