-- ==== Sys2Proof/Config.lean ====
section
/-! DEFINITION. What an implementation fixes (00_scope.md R7) and the choices the spec leaves open: what the
HOST goes on to do and which agent moves (R10), and the order of the row writes of a per_row replacement
(41_driver.md R137). -/

namespace Sys2Proof

/-- CANCEL_POLL (R7, R174, D12): the row boundaries at which the engine tests `cancel`. -/
inductive CancelPoll where
  | perRow
  | perCycle
  deriving DecidableEq, Repr

/-- BUFFER_WRITE_MODE (R7, R57, D10): whether a buffer replacement is one step or eight row writes. -/
inductive BufferWriteMode where
  | atomic
  | perRow
  deriving DecidableEq, Repr

/-- The model parameters of R7. They are configuration (R37): no step of the machine writes them.
DESIGN CHOICE (log 3): they are carried as data, so that every statement holds for all four settings. -/
structure Params where
  cancelPoll      : CancelPoll
  bufferWriteMode : BufferWriteMode
  deriving DecidableEq, Repr

/-- The two agents that take steps (R3). -/
inductive Agent where
  | host
  | engine
  deriving DecidableEq, Repr

/-- What the outside does next: the HOST issues a command, delivered as header and payload (R72), or power is
removed and comes back (R224, R242). A command in progress has `subSteps` more sub-steps (R137) before power is
lost, if it has so many left: with 0 it is cut off where it stands (log 13). -/
inductive Input where
  | command (words : List Word)
  | powerCycle (subSteps : Nat)
  deriving DecidableEq, Repr, Inhabited

/-- The n-th input past those State lists, where the HOST goes on for ever. A FREE VALUE: an execution may be
infinite, with any commands (R10; log 1). -/
opaque Config.hostInput : Nat → Input

/-- The n-th choice of how many contested steps the HOST takes before the ENGINE's next one, where State lists no
turns. A FREE VALUE: R10 admits any interleaving, and R184 asks only that the number is finite (log 1, log 14). -/
opaque Config.hostSteps : Nat → Nat

/-- The n-th choice among the rows a per_row replacement has still to write, where State lists none.
A FREE VALUE: R137 leaves the permutation open (log 4). -/
opaque Config.rowPick : Nat → Nat

end Sys2Proof
end

