-- ==== Sys2Proof/Syntax.lean ====
section
/-! DEFINITION. The instructions: one constructor per row of spec/opcode_table.json. -/

namespace Sys2Proof

/-- The three output lines (10_state.md R30). PIN = 3 is reserved and has no name here (R80). -/
inductive Pin where
  | ds
  | shcp
  | stcp
  deriving DecidableEq, Repr

/-- Producer commands (30_encoding.md R74) and internal micro-operations (R79).
A command carries the payload words delivered with it, however many: a wrong LEN is an outcome the spec
gives the command (INVALID_SIZE or REJECTED, R75), not an undecodable word. -/
inductive Instr where
  /-- CONSTRUCT ds, stcp, shcp (R131). -/
  | construct (payload : List Word)
  /-- SET_IMAGE_FLAT [c0, ..., c63] (R132). -/
  | setImageFlat (payload : List Word)
  /-- SET_IMAGE_PACKED [b0, ..., b7] (R133). -/
  | setImagePacked (payload : List Word)
  /-- CLEAR v (R134). -/
  | clear (payload : List Word)
  /-- STOP (R135). -/
  | stop (payload : List Word)
  /-- READ_BUFFER (R136). -/
  | readBuffer (payload : List Word)
  /-- PIN_WRITE p, v (R101). -/
  | pinWrite (p : Pin) (v : Level)
  /-- PUSH_BYTE b (R102). -/
  | pushByte (b : Byte)
  /-- LATCH (R103). -/
  | latch
  /-- PRESENT_ROW r, b (R104). -/
  | presentRow (r : Row) (b : Byte)
  /-- SCAN_POLL (R171). -/
  | scanPoll
  /-- SCAN_WRITE n, n in 0..49 (R172); a larger index is reserved (R80) and has no name here. -/
  | scanWrite (n : Fin 50)
  deriving DecidableEq, Repr

end Sys2Proof
end

