-- ==== Sys2Proof/Machine/State.lean ====
section
/-! DEFINITION. The state of the machine as plain data: the block's own state (10_state.md R20), the external
cascade (60_exceptions.md R220), the producer command port, and the choices the spec leaves open; the
power-up state (70_reset_and_hazards.md R240); and the reasons a step can stop. -/

namespace Sys2Proof.Machine

/-- The lifecycle state (R24): whether scanning has been requested. -/
inductive ScanState where
  | idle
  | scanning
  deriving DecidableEq, Repr

/-- The block's state, exactly the table of R20. -/
structure Block where
  constructed    : Bool
  pinIdDs        : Word
  pinIdStcp      : Word
  pinIdShcp      : Word
  lvlDs          : Level
  lvlShcp        : Level
  lvlStcp        : Level
  buf            : Rows
  scanState      : ScanState
  cancel         : Bool
  restartPending : Bool
  engActive      : Bool
  row            : Row
  mpc            : Fin 51
  curSel         : Byte
  curCol         : Byte
  /-- The pin writes performed, oldest first (R31). -/
  trace          : List (Pin × Level)
  deriving DecidableEq, Repr

/-- The external shift-register cascade (R220): `sr` the shift stages, near register in [7:0] and far register
in [15:8]; `q` the latched parallel outputs. PRESUMED (log 12): the spec marks it general knowledge. -/
structure Cascade where
  sr : BitVec 16
  q  : BitVec 16
  deriving DecidableEq, Repr

/-- A buffer replacement in progress under BUFFER_WRITE_MODE = per_row (R137): the new image, the rows not yet
written, and whether StartScanIfIdle runs at the end. -/
structure Replacement where
  rows      : Rows
  left      : List Row
  startScan : Bool
  deriving DecidableEq, Repr

structure State where
  block   : Block
  cascade : Cascade
  /-- Configuration, written by no step (log 3). -/
  params  : Params
  /-- What the HOST will do, in order (log 1). -/
  inputs  : List Input
  /-- Whether the HOST goes on after `inputs` for ever, each further input what `Config.hostInput` says, or
  issues nothing more (R10, R184; log 1). No step writes it. -/
  endless : Bool
  /-- The HOST command in progress, under per_row (R137). -/
  busy    : Option Replacement
  /-- The responses returned so far, oldest first, each a list of words (R76; log 5). -/
  outputs : List (List Word)
  /-- Who takes each of the coming contested steps; past its end `engineWait` says (R10; log 1). -/
  turns   : List Agent
  /-- How many contested steps the HOST still takes before the ENGINE's next one; `none`: `Config.hostSteps` says
  when one comes (R10, R184; log 1). -/
  engineWait : Option Nat
  /-- Which remaining row each coming row write takes; past its end `Config.rowPick` says (R137; log 4). -/
  picks   : List Nat
  /-- How many free values have been drawn (log 1, log 4). -/
  drawn   : Nat
  /-- A micro-operation word to perform alone, before anything else; no step sets it (log 8). -/
  uop     : Option (BitVec 16)
  deriving DecidableEq, Repr

/-- The machine stops with no fault: the block has no trap mechanism (R214), no link operation has an error
condition (R100) and a pin write never fails (R216, I6; log 15). -/
inductive Fault : Type
  deriving DecidableEq, Repr

/-- Why the model gives no next state. -/
inductive Refusal where
  /-- Raised by `exec`'s arm of an instruction that has no meaning yet. Safe. -/
  | notModelled (mnemonic : String)
  /-- Raised by the fetch of a delivery whose payload count differs from LEN: a transport error, no command,
  which the model refuses at the decoder (R72, I10; log 6). Safe. -/
  | transportError
  /-- Raised by the fetch of a reserved micro-operation word: a model that meets one refuses it (R80, I9b).
  Safe. -/
  | reservedMicroOp (word : BitVec 16)
  /-- Raised by a HOST command executed while a per_row replacement is still in progress: no other HOST command
  starts until its last sub-step (R137; log 7). No step raises it. Safe. -/
  | hostBusy
  /-- Raised by SCAN_POLL and SCAN_WRITE while the ENGINE has no step: not constructed or not active
  (R170; log 7). No step of the machine's own raises it. Safe. -/
  | engineNotEnabled
  /-- Raised by SCAN_POLL where `mpc` is not 0 and by SCAN_WRITE(n) where `mpc` is not n + 1: each is
  performed only there (R171, R172; log 7). No step of the machine's own raises it. Safe. -/
  | offSequence
  deriving DecidableEq, Repr

/-- The block at power-up (R240). `constructed`, `eng_active`, `scan_state` and `trace` are the spec's there, and
`cancel`, `restart_pending` and `mpc` by INV5 (R33); every other element is unspecified and stands at the value
CONSTRUCT gives it (R36), the pin identifiers at 0: DESIGN CHOICE (log 10). -/
def Block.powerUp : Block where
  constructed := false
  pinIdDs := 0
  pinIdStcp := 0
  pinIdShcp := 0
  lvlDs := false
  lvlShcp := false
  lvlStcp := false
  buf := #v[0, 0, 0, 0, 0, 0, 0, 0]
  scanState := .idle
  cancel := false
  restartPending := false
  engActive := false
  row := 0
  mpc := 0
  curSel := 0
  curCol := 0
  trace := []

/-- The cascade at power-up. Its contents are unspecified (R220, I7): DESIGN CHOICE 0 (log 11). -/
def Cascade.powerUp : Cascade where
  sr := 0
  q := 0

/-- The defaults of R7. -/
def defaultParams : Params where
  cancelPoll := .perRow
  bufferWriteMode := .atomic

/-- The machine right after power-up (R240), the parameters at their defaults (R7), with nothing issued by the
HOST and nothing to come. CONSTRUCT, the block's own reset (R241), is a command and still to come (log 9). -/
def State.reset : State where
  block := Block.powerUp
  cascade := Cascade.powerUp
  params := defaultParams
  inputs := []
  endless := false
  busy := none
  outputs := []
  turns := []
  engineWait := none
  picks := []
  drawn := 0
  uop := none

end Sys2Proof.Machine
end

