-- ==== Sys2Proof/Machine/Flags.lean ====
section
/-! DEFINITION. The flags of the block, `scan_state`, `cancel`, `restart_pending` and `eng_active` (10_state.md
R34), and the three procedures that compute them: StartScanIfIdle, StopScan and OnCancel (42_scan.md R175,
R177, R178). The block has no arithmetic flags (R34). -/

namespace Sys2Proof.Machine

/-- `StartScanIfIdle()` (R177). -/
def Block.startScanIfIdle (b : Block) : Block :=
  match b.scanState with
  | .scanning => b
  | .idle =>
    if b.engActive then { b with scanState := .scanning, restartPending := true }
    else
      { b with
        scanState := .scanning
        engActive := true
        cancel := false
        restartPending := false
        row := 0
        mpc := 0 }

/-- `StopScan()` (R178). -/
def Block.stopScan (b : Block) : Block :=
  match b.scanState with
  | .idle => b
  | .scanning => { b with scanState := .idle, cancel := true, restartPending := false }

/-- `polls(row)`: whether the poll at this row boundary tests `cancel` (R174). -/
def polls (mode : CancelPoll) (row : Row) : Bool :=
  match mode with
  | .perRow => true
  | .perCycle => row == 0

/-- `OnCancel()`: the engine honours a cancel request, by a restart at row 0 or by its exit (R175). -/
def Block.onCancel (b : Block) : Block :=
  if b.restartPending then { b with cancel := false, row := 0, restartPending := false }
  else { b with cancel := false, row := 0, engActive := false }

end Sys2Proof.Machine
end

