-- ==== Sys2Proof/Machine/Operands.lean ====
section
/-! DEFINITION. How operands are assembled into values (30_encoding.md R78) and the pin writes of a byte, a
latch pulse and a row (40_link.md R102 to R104, 30_encoding.md R81). -/

namespace Sys2Proof.Machine

/-- `on(w)`: a cell or fill value is on iff the whole word is 1 (R78, I1). -/
def isOn (w : Word) : Bool := w == 1#32

/-- Bit j of `pack(c)[i]`, in place: `(on(c[i*8+j]) ? 1 : 0) << j` (R78). -/
def cellTerm (cells : List Word) (i j : Nat) : Byte :=
  (if isOn (cells.getD (i * 8 + j) 0#32) then 1#8 else 0#8) <<< j

/-- `pack(c)[i]`, the sum of the row's eight terms (R78). -/
def packRow (cells : List Word) (i : Nat) : Byte :=
  cellTerm cells i 0 + cellTerm cells i 1 + cellTerm cells i 2 + cellTerm cells i 3 +
    cellTerm cells i 4 + cellTerm cells i 5 + cellTerm cells i 6 + cellTerm cells i 7

/-- `pack(c)`, a flat image as eight row bytes, row-major (R52, R78). -/
def packFlat (cells : List Word) : Rows := Vector.ofFn fun i => packRow cells i.val

/-- The row bytes of a packed image: `w[r][7:0]` (R133). -/
def packedRows (words : List Word) : Rows :=
  Vector.ofFn fun r => (words.getD r.val 0#32).extractLsb' 0 8

/-- Some packed payload word has bits [31:8] not 0 (R83, R133). -/
def packedHighBits (words : List Word) : Bool := words.any fun w => w.extractLsb' 8 24 != 0#24

/-- `fill(w)` (R78). -/
def fillByte (w : Word) : Byte := if isOn w then 0xFF#8 else 0x00#8

/-- The image CLEAR writes: every row the fill byte (R134). -/
def fillRows (w : Word) : Rows := Vector.replicate 8 (fillByte w)

/-- `sel(r) = 1 << r`, the one-hot row selector (R78). -/
def selector (r : Row) : Byte := 1#8 <<< r.toNat

/-- The three identifiers of CONSTRUCT, in the order DS, STCP, SHCP, are pairwise distinct (R131). -/
def pinsDistinct (payload : List Word) : Bool :=
  payload.getD 0 0 != payload.getD 1 0 && payload.getD 0 0 != payload.getD 2 0 &&
    payload.getD 1 0 != payload.getD 2 0

/-- A pulse of line p: low, then high (R106). -/
def pulse (p : Pin) : List (Pin × Level) := [(p, false), (p, true)]

/-- The pin writes of `pushByte(b)`: bit 7 first, each bit followed by one SHCP pulse (R102, R53). -/
def byteWrites (b : Byte) : List (Pin × Level) :=
  [7, 6, 5, 4, 3, 2, 1, 0].flatMap fun i => (.ds, b.getLsbD i) :: pulse .shcp

/-- The pin writes of `latch()` (R103). -/
def latchWrites : List (Pin × Level) := pulse .stcp

/-- The pin writes of a row presentation with selector s and column byte c (R104, R54). -/
def rowWrites (s c : Byte) : List (Pin × Level) := byteWrites s ++ byteWrites c ++ latchWrites

/-- `seqW(s, c, n)`, the n-th pin write of a row presentation (R81). -/
def seqW (s c : Byte) (n : Fin 50) : Pin × Level :=
  if n.val < 48 then
    let byte := if n.val < 24 then s else c
    match n.val % 3 with
    | 0 => (.ds, byte.getLsbD (7 - n.val % 24 / 3))
    | 1 => (.shcp, false)
    | _ => (.shcp, true)
  else if n.val = 48 then (.stcp, false)
  else (.stcp, true)

end Sys2Proof.Machine
end

