-- ==== Sys2Proof/Machine/Ops.lean ====
section
/-! DEFINITION. The shared operations: driving a line and what the external cascade makes of it, reading and
replacing the row buffer, answering a command, ending a command in an error (all this block has of an
exception, 60_exceptions.md R214), running a command behind its checks, and removing power. -/

namespace Sys2Proof.Machine

/-! ### Pins -/

/-- The current level of a line (10_state.md R30). -/
def Block.level (b : Block) : Pin → Level
  | .ds => b.lvlDs
  | .shcp => b.lvlShcp
  | .stcp => b.lvlStcp

/-- `lvl_p <- v` (40_link.md R101). -/
def Block.setLevel (b : Block) (p : Pin) (v : Level) : Block :=
  match p with
  | .ds => { b with lvlDs := v }
  | .shcp => { b with lvlShcp := v }
  | .stcp => { b with lvlStcp := v }

/-- `PinWrite(p, v)` on the block: the level, and one event at the end of the trace (R101, R31). -/
def Block.drive (b : Block) (p : Pin) (v : Level) : Block :=
  { b.setLevel p v with trace := b.trace ++ [(p, v)] }

/-- What the cascade makes of `PinWrite(p, v)`, from the levels before it: SHCP 0 to 1 shifts DS in, STCP 0 to 1
copies the stages to the outputs (60_exceptions.md R220; log 12). -/
def Cascade.observe (c : Cascade) (before : Block) (p : Pin) (v : Level) : Cascade :=
  match p, v with
  | .shcp, true =>
    if before.lvlShcp then c else { c with sr := c.sr.extractLsb' 0 15 ++ BitVec.ofBool before.lvlDs }
  | .stcp, true => if before.lvlStcp then c else { c with q := c.sr }
  | _, _ => c

/-- `PinWrite(p, v)` (R101, R220). -/
def State.pinWrite (s : State) (p : Pin) (v : Level) : State :=
  { s with block := s.block.drive p v, cascade := s.cascade.observe s.block p v }

/-- Pin writes one after another, in the list's order (40_link.md R105). -/
def State.pinWrites (s : State) : List (Pin × Level) → State
  | [] => s
  | (p, v) :: rest => (s.pinWrite p v).pinWrites rest

/-! ### The row buffer -/

/-- `BufRead(r)`: one row, one byte (20_memory.md R57). -/
def Block.bufRead (b : Block) (r : Row) : Byte := b.buf[r.toNat]'r.isLt

/-- One single-row write `buf[r] <- v` (R57, per_row). -/
def Block.bufWriteRow (b : Block) (r : Row) (v : Byte) : Block :=
  { b with buf := b.buf.set r.toNat v r.isLt }

/-- The bytes of READ_BUFFER's answer, rows ascending (R76). -/
def Block.bufWords (b : Block) : List Word := b.buf.toList.map fun v => v.setWidth 32

/-! ### Answering a command -/

/-- STATUS of a response (30_encoding.md R77). Code 3 is reserved and never returned. -/
inductive Status where
  | ok
  | invalidSize
  | rejected
  deriving DecidableEq, Repr

/-- The status codes of R77. -/
def Status.code : Status → BitVec 2
  | .ok => 0
  | .invalidSize => 1
  | .rejected => 2

/-- The reasons of REJECTED (R212). The response carries only the status. -/
inductive RejectReason where
  | reservedTag
  | reservedBits
  | notConstructed
  | alreadyConstructed
  | badLength
  | pinsNotDistinct
  | packedHighBits
  deriving DecidableEq, Repr

/-- The two error kinds the block reports (R210). -/
inductive CommandError where
  | invalidSize
  | rejected (reason : RejectReason)
  deriving DecidableEq, Repr

/-- The status an error returns (R211, R212). -/
def CommandError.status : CommandError → Status
  | .invalidSize => .invalidSize
  | .rejected _ => .rejected

/-- The response's first word: bits [1:0] the status, the others 0 (R76). -/
def statusWord (st : Status) : Word := 0#30 ++ st.code

/-- Return a response to the issuer (R76; log 5). -/
def State.respond (s : State) (st : Status) (data : List Word) : State :=
  { s with outputs := s.outputs ++ [statusWord st :: data] }

/-- End a command in an error: no state of the block changes, its only record is the status returned; no
handler is entered (R211, R212, R214). -/
def State.raise (s : State) (e : CommandError) : State := s.respond e.status []

/-! ### Running a command -/

/-- `not_constructed` (R212): every command but CONSTRUCT. -/
def needConstructed (b : Block) : Option CommandError :=
  if b.constructed then none else some (.rejected .notConstructed)

/-- `already_constructed` (R212): CONSTRUCT. -/
def needUnconstructed (b : Block) : Option CommandError :=
  if b.constructed then some (.rejected .alreadyConstructed) else none

/-- The length check of a command, with the error it raises (R75). -/
def needLength (n : Nat) (e : CommandError) (payload : List Word) : Option CommandError :=
  if payload.length = n then none else some e

/-- A payload check (R213 step 5). -/
def needPayload (good : Bool) (reason : RejectReason) : Option CommandError :=
  if good then none else some (.rejected reason)

/-- The first of a command's checks that fails, in their order (R213). -/
def firstError : List (Option CommandError) → Option CommandError
  | [] => none
  | some e :: _ => some e
  | none :: rest => firstError rest

/-- Run a HOST command: nothing while another is in progress (R137; log 7); its error if a check fails, with no
state changed; else its effect (R130, R213). -/
def State.runCommand (s : State) (checks : List (Option CommandError)) (effect : State → State) :
    Host.Outcome State Fault Refusal :=
  if s.busy.isSome then .refused .hostBusy
  else
    match firstError checks with
    | some e => .next (s.raise e)
    | none => .next (effect s)

/-! ### Replacing the buffer -/

/-- The end of a replacement: StartScanIfIdle where the command calls it, and OK (R132 to R134, R137). -/
def State.finishReplacement (s : State) (startScan : Bool) : State :=
  ({ s with
      block := if startScan then s.block.startScanIfIdle else s.block
      busy := none }).respond .ok []

/-- The next choice among the remaining rows: listed, or a free value (R137, I13; log 4). -/
def State.takePick (s : State) : Nat × State :=
  match s.picks with
  | k :: rest => (k, { s with picks := rest })
  | [] => (Config.rowPick s.drawn, { s with drawn := s.drawn + 1 })

/-- One HOST sub-step of a per_row replacement: one row write, in an order left open, or, with no row left, the
end of the command (R137). -/
def State.replacementStep (s : State) (r : Replacement) : State :=
  match r.left with
  | [] => s.finishReplacement r.startScan
  | first :: others =>
    let (k, s') := s.takePick
    let chosen := (first :: others).getD (k % (others.length + 1)) first
    { s' with
      block := s'.block.bufWriteRow chosen (r.rows[chosen.toNat]'chosen.isLt)
      busy := some { r with left := (first :: others).erase chosen } }

/-- The eight rows. -/
def allRows : List Row := [0, 1, 2, 3, 4, 5, 6, 7]

/-- `BufWriteAll(v)` and what follows it: one step in the atomic mode, else the first of nine HOST sub-steps
(20_memory.md R57, 41_driver.md R137). -/
def State.replaceBuffer (s : State) (v : Rows) (startScan : Bool) : State :=
  match s.params.bufferWriteMode with
  | .atomic => ({ s with block := { s.block with buf := v } }).finishReplacement startScan
  | .perRow => s.replacementStep { rows := v, left := allRows, startScan := startScan }

/-! ### Construction and power -/

/-- Every element as CONSTRUCT leaves it (10_state.md R36, 41_driver.md R131). Setting the levels is no pin
write: no event, and the cascade does not see it (R31). -/
def Block.afterConstruct (ds stcp shcp : Word) : Block where
  constructed := true
  pinIdDs := ds
  pinIdStcp := stcp
  pinIdShcp := shcp
  lvlDs := false
  lvlShcp := false
  lvlStcp := false
  buf := #v[0, 0, 0, 0, 0, 0, 0, 0]
  scanState := .idle
  cancel := false
  restartPending := false
  engActive := false
  row := 0
  mpc := 0
  curSel := 0
  curCol := 0
  trace := []

/-- Power is removed and comes back: no state of the block survives, and the block and the cascade stand as
at power-up (R224, R240; log 13). An ENGINE that waited for its turn is gone, so that the HOST may take any
number of contested steps again (R184; log 14). -/
def State.powerCycle (s : State) : State :=
  { s with block := Block.powerUp, cascade := Cascade.powerUp, busy := none, engineWait := none, uop := none }

/-! ### The sequencer -/

/-- Advance of the sequencer after a SCAN_WRITE (42_scan.md R173). -/
def Block.advance (b : Block) : Block :=
  if b.mpc = 50 then { b with mpc := 0, row := b.row + 1 } else { b with mpc := b.mpc + 1 }

/-- The start of a row: its frame is captured, once, and its writes begin (R171, R29). -/
def Block.startRow (b : Block) : Block :=
  { b with curSel := selector b.row, curCol := b.bufRead b.row, mpc := 1 }

/-- The ENGINE has a step iff the block is constructed and the engine active (R170). -/
def Block.engineEnabled (b : Block) : Bool := b.constructed && b.engActive

end Sys2Proof.Machine
end

