-- ==== Sys2Proof/Machine/Driver.lean ====
section
/-! DEFINITION. The producer commands (41_driver.md R130 to R137). Each lists its checks in the order of
60_exceptions.md R213 and its effect. -/

namespace Sys2Proof.Machine

/-- CONSTRUCT ds, stcp, shcp (R131). -/
def execConstruct (payload : List Word) (s : State) : Host.Outcome State Fault Refusal :=
  s.runCommand
    [needUnconstructed s.block, needLength 3 (.rejected .badLength) payload,
      needPayload (pinsDistinct payload) .pinsNotDistinct]
    fun s =>
      ({ s with
          block := Block.afterConstruct (payload.getD 0 0) (payload.getD 1 0) (payload.getD 2 0) }).respond
        .ok []

/-- SET_IMAGE_FLAT [c0, ..., c63] (R132). -/
def execSetImageFlat (payload : List Word) (s : State) : Host.Outcome State Fault Refusal :=
  s.runCommand [needConstructed s.block, needLength 64 .invalidSize payload]
    fun s => s.replaceBuffer (packFlat payload) true

/-- SET_IMAGE_PACKED [b0, ..., b7] (R133). -/
def execSetImagePacked (payload : List Word) (s : State) : Host.Outcome State Fault Refusal :=
  s.runCommand
    [needConstructed s.block, needLength 8 .invalidSize payload,
      needPayload (!packedHighBits payload) .packedHighBits]
    fun s => s.replaceBuffer (packedRows payload) true

/-- CLEAR v (R134): the scan state is not touched. -/
def execClear (payload : List Word) (s : State) : Host.Outcome State Fault Refusal :=
  s.runCommand [needConstructed s.block, needLength 1 (.rejected .badLength) payload]
    fun s => s.replaceBuffer (fillRows (payload.getD 0 0)) false

/-- STOP (R135): it does not wait for the engine. -/
def execStop (payload : List Word) (s : State) : Host.Outcome State Fault Refusal :=
  s.runCommand [needConstructed s.block, needLength 0 (.rejected .badLength) payload]
    fun s => ({ s with block := s.block.stopScan }).respond .ok []

/-- READ_BUFFER (R136): one atomic read of all rows. -/
def execReadBuffer (payload : List Word) (s : State) : Host.Outcome State Fault Refusal :=
  s.runCommand [needConstructed s.block, needLength 0 (.rejected .badLength) payload]
    fun s => s.respond .ok s.block.bufWords

end Sys2Proof.Machine
end

