-- ==== Sys2Proof/Machine/Link.lean ====
section
/-! DEFINITION. The ShiftRegisterLink operations (40_link.md R100 to R108). They have no error conditions
(R100); each is the list of its pin writes, performed in order (R105). -/

namespace Sys2Proof.Machine

/-- PIN_WRITE p, v (R101). -/
def execPinWrite (p : Pin) (v : Level) (s : State) : Host.Outcome State Fault Refusal :=
  .next (s.pinWrite p v)

/-- PUSH_BYTE b (R102). -/
def execPushByte (b : Byte) (s : State) : Host.Outcome State Fault Refusal :=
  .next (s.pinWrites (byteWrites b))

/-- LATCH (R103). -/
def execLatch (s : State) : Host.Outcome State Fault Refusal :=
  .next (s.pinWrites latchWrites)

/-- PRESENT_ROW r, b (R104): the selector, the byte, the latch pulse. -/
def execPresentRow (r : Row) (b : Byte) (s : State) : Host.Outcome State Fault Refusal :=
  .next (((s.pinWrites (byteWrites (selector r))).pinWrites (byteWrites b)).pinWrites latchWrites)

end Sys2Proof.Machine
end

