-- ==== Sys2Proof/Machine/Scan.lean ====
section
/-! DEFINITION. The two steps of the scan engine (42_scan.md R170 to R175). Where the ENGINE has no such step
(it is not enabled, or the sequencer is elsewhere) there is nothing to perform: a refusal (log 7). -/

namespace Sys2Proof.Machine

/-- SCAN_POLL (R171): the row boundary; it honours a cancel request or starts a row, and writes no pin. -/
def execScanPoll (s : State) : Host.Outcome State Fault Refusal :=
  if s.block.engineEnabled then
    if s.block.mpc = 0 then
      if polls s.params.cancelPoll s.block.row && s.block.cancel then
        .next { s with block := s.block.onCancel }
      else .next { s with block := s.block.startRow }
    else .refused .offSequence
  else .refused .engineNotEnabled

/-- SCAN_WRITE n (R172): pin write n of the row in flight, then the sequencer advances. -/
def execScanWrite (n : Fin 50) (s : State) : Host.Outcome State Fault Refusal :=
  if s.block.engineEnabled then
    if s.block.mpc = n.succ then
      let (p, v) := seqW s.block.curSel s.block.curCol n
      let written := s.pinWrite p v
      .next { written with block := written.block.advance }
    else .refused .offSequence
  else .refused .engineNotEnabled

end Sys2Proof.Machine
end

