-- ==== Sys2Proof/Machine/Dispatch.lean ====
section
/-! DEFINITION. The dispatch from an instruction to its meaning. -/

namespace Sys2Proof.Machine

def exec (i : Instr) (s : State) : Host.Outcome State Fault Refusal :=
  match i with
  | .construct payload => Sys2Proof.Machine.execConstruct payload s
  | .setImageFlat payload => Sys2Proof.Machine.execSetImageFlat payload s
  | .setImagePacked payload => Sys2Proof.Machine.execSetImagePacked payload s
  | .clear payload => Sys2Proof.Machine.execClear payload s
  | .stop payload => Sys2Proof.Machine.execStop payload s
  | .readBuffer payload => Sys2Proof.Machine.execReadBuffer payload s
  | .pinWrite p v => Sys2Proof.Machine.execPinWrite p v s
  | .pushByte b => Sys2Proof.Machine.execPushByte b s
  | .latch => Sys2Proof.Machine.execLatch s
  | .presentRow r b => Sys2Proof.Machine.execPresentRow r b s
  | .scanPoll => Sys2Proof.Machine.execScanPoll s
  | .scanWrite n => Sys2Proof.Machine.execScanWrite n s

end Sys2Proof.Machine
end

