-- ==== Sys2Proof/WellFormed.lean ====
section
/-! DEFINITION. When an instruction has an encoding: a command's payload count must fit in the 16-bit LEN
field (30_encoding.md R71). Every other operand is in range by its type. -/

namespace Sys2Proof

/-- LEN is 16 bits wide: 0 to 65535 payload words (R71). -/
def lenFits (payload : List Word) : Bool := payload.length < 65536

/-- The instruction is one that some word or delivery encodes. -/
def Instr.wellFormed : Instr → Bool
  | .construct payload => lenFits payload
  | .setImageFlat payload => lenFits payload
  | .setImagePacked payload => lenFits payload
  | .clear payload => lenFits payload
  | .stop payload => lenFits payload
  | .readBuffer payload => lenFits payload
  | .pinWrite _ _ => true
  | .pushByte _ => true
  | .latch => true
  | .presentRow _ _ => true
  | .scanPoll => true
  | .scanWrite _ => true

end Sys2Proof
end

