-- ==== Sys2Proof/Decode.lean ====
section
/-! DEFINITION. The decoder and the encoder of the two binary formats (30_encoding.md R71 to R75, R79, R80),
and the reading of an opcode-table word. The spec gives no byte order for its words, which travel whole
(R50, R71, R79), so the unit decoded is a word and not a byte (log 18). -/

namespace Sys2Proof

/-- What a decoder is given: a command as the transport delivers it, header first (R72), or one
micro-operation word (R79). The two tag spaces are separate (R80). -/
inductive CodeUnit where
  | command (words : List Word)
  | microOp (word : BitVec 16)
  deriving DecidableEq, Repr

/-- Why a unit is no instruction. -/
inductive DecodeError where
  /-- The delivered payload count differs from LEN, or there is no header (R72, I10). -/
  | transport
  /-- TAG in 0x6..0xF (R83, R212 `reserved_tag`). -/
  | reservedTag
  /-- Header bits [15:4] not 0 (R83, R212 `reserved_bits`). -/
  | reservedBits
  /-- A reserved micro-operation word (R80, I9b). -/
  | reservedMicroOp
  deriving DecidableEq, Repr

/-! ### Producer commands -/

/-- Header field TAG, bits [3:0] (R71). -/
def headerTag (h : Word) : BitVec 4 := h.extractLsb' 0 4

/-- Header field RSVD, bits [15:4] (R71). -/
def headerRsvd (h : Word) : BitVec 12 := h.extractLsb' 4 12

/-- Header field LEN, bits [31:16] (R71). -/
def headerLen (h : Word) : BitVec 16 := h.extractLsb' 16 16

/-- The tag table of R74; `none` for the reserved tags 0x6 to 0xF. -/
def commandOfTag (tag : BitVec 4) (payload : List Word) : Option Instr :=
  match tag.toNat with
  | 0 => some (.construct payload)
  | 1 => some (.setImageFlat payload)
  | 2 => some (.setImagePacked payload)
  | 3 => some (.clear payload)
  | 4 => some (.stop payload)
  | 5 => some (.readBuffer payload)
  | _ => none

/-- A delivery read as a command: the count first (R72), then the tag, then the reserved bits (R213). -/
def decodeCommand : List Word → Except DecodeError Instr
  | [] => .error .transport
  | h :: payload =>
    if payload.length = (headerLen h).toNat then
      match commandOfTag (headerTag h) payload with
      | none => .error .reservedTag
      | some i => if headerRsvd h = 0#12 then .ok i else .error .reservedBits
    else .error .transport

/-! ### Micro-operations -/

/-- Field PIN of PIN_WRITE (R79); 3 is reserved. -/
def pinOfCode (c : BitVec 2) : Option Pin :=
  match c.toNat with
  | 0 => some .ds
  | 1 => some .shcp
  | 2 => some .stcp
  | _ => none

/-- A micro-operation word by its UTAG, bits [3:0], and the layout of R79; every reserved bit must be 0. -/
def decodeMicroOp (w : BitVec 16) : Except DecodeError Instr :=
  match (w.extractLsb' 0 4).toNat with
  | 8 =>
    match pinOfCode (w.extractLsb' 4 2) with
    | some p =>
      if w.extractLsb' 7 9 = 0#9 then .ok (.pinWrite p (w.getLsbD 6)) else .error .reservedMicroOp
    | none => .error .reservedMicroOp
  | 9 => if w.extractLsb' 4 4 = 0#4 then .ok (.pushByte (w.extractLsb' 8 8)) else .error .reservedMicroOp
  | 10 => if w.extractLsb' 4 12 = 0#12 then .ok .latch else .error .reservedMicroOp
  | 11 =>
    if w.extractLsb' 7 1 = 0#1 then .ok (.presentRow (w.extractLsb' 4 3) (w.extractLsb' 8 8))
    else .error .reservedMicroOp
  | 12 => if w.extractLsb' 4 12 = 0#12 then .ok .scanPoll else .error .reservedMicroOp
  | 13 =>
    if w.extractLsb' 4 4 = 0#4 then
      if h : (w.extractLsb' 8 8).toNat < 50 then .ok (.scanWrite ⟨(w.extractLsb' 8 8).toNat, h⟩)
      else .error .reservedMicroOp
    else .error .reservedMicroOp
  | _ => .error .reservedMicroOp

/-- The decoder over both formats. -/
def decode : CodeUnit → Except DecodeError Instr
  | .command words => decodeCommand words
  | .microOp w => decodeMicroOp w

/-! ### The encoder -/

/-- The header of a command with that tag and payload: LEN, RSVD = 0, TAG (R71). -/
def encodeHeader (tag : BitVec 4) (payload : List Word) : Word :=
  BitVec.ofNat 16 payload.length ++ 0#12 ++ tag

/-- A command as the transport delivers it (R72). -/
def encodeCommand (tag : BitVec 4) (payload : List Word) : CodeUnit :=
  .command (encodeHeader tag payload :: payload)

/-- Field PIN of PIN_WRITE (R79). -/
def pinCode : Pin → BitVec 2
  | .ds => 0
  | .shcp => 1
  | .stcp => 2

/-- The words of an instruction, from R74 and R79. -/
def encode : Instr → CodeUnit
  | .construct payload => encodeCommand 0x0 payload
  | .setImageFlat payload => encodeCommand 0x1 payload
  | .setImagePacked payload => encodeCommand 0x2 payload
  | .clear payload => encodeCommand 0x3 payload
  | .stop payload => encodeCommand 0x4 payload
  | .readBuffer payload => encodeCommand 0x5 payload
  | .pinWrite p v => .microOp (0#9 ++ BitVec.ofBool v ++ pinCode p ++ 0x8#4)
  | .pushByte b => .microOp (b ++ 0#4 ++ 0x9#4)
  | .latch => .microOp (0#12 ++ 0xA#4)
  | .presentRow r b => .microOp (b ++ 0#1 ++ r ++ 0xB#4)
  | .scanPoll => .microOp (0#12 ++ 0xC#4)
  | .scanWrite n => .microOp (BitVec.ofNat 8 n.val ++ 0#4 ++ 0xD#4)

/-! ### Opcode-table words -/

/-- The unit whose first `nbits` bits are `w` and whose other bits are 0. A row of at most 16 bits whose low
four bits are 8 or more is a micro-operation word (R79: UTAG 0x8 to 0xD); any other is a producer header
(R74: TAG 0x0 to 0x5) followed by the LEN payload words it announces. -/
def tableUnit (nbits w : Nat) : CodeUnit :=
  let bits := w % 2 ^ nbits
  if nbits ≤ 16 ∧ 8 ≤ bits % 16 then .microOp (BitVec.ofNat 16 bits)
  else
    let h := BitVec.ofNat 32 bits
    .command (h :: (List.range (headerLen h).toNat).map fun k => BitVec.ofNat 32 (bits >>> (32 * (k + 1))))

/-- The instruction the decoder reads from an opcode-table word, bit 0 the least significant bit of the
first word. -/
def decodeTableWord (nbits w : Nat) : Option Instr :=
  match decode (tableUnit nbits w) with
  | .ok i => some i
  | .error _ => none

end Sys2Proof
end

