-- ==== Sys2Proof/Machine/Fetch.lean ====
section
/-! DEFINITION. What the next step is: which agent moves (00_scope.md R10), what the HOST does (a command, a
sub-step of a per_row replacement, power), what the ENGINE does (42_scan.md R170), and where an instruction
is placed so that it is the next one. -/

namespace Sys2Proof.Machine

/-- What a step comes to. -/
inductive Fetched where
  /-- Instruction `i` is executed on this state. -/
  | run (i : Instr) (s : State)
  /-- No instruction is executed: the step ends in this state. -/
  | done (s : State)
  /-- The model gives no next state. -/
  | stop (r : Refusal)
  deriving DecidableEq, Repr

/-- The HOST has something to do: a command in progress, an input, or inputs without end. -/
def State.hostReady (s : State) : Bool := s.busy.isSome || !s.inputs.isEmpty || s.endless

/-- The ENGINE has a step (R170). -/
def State.engineReady (s : State) : Bool := s.block.engineEnabled

/-- The ENGINE's turn after `n` contested steps of the HOST. -/
def State.waitTurn (s : State) (n : Nat) : Agent × State :=
  match n with
  | 0 => (.engine, { s with engineWait := none })
  | m + 1 => (.host, { s with engineWait := some m })

/-- Who takes a step that both agents could take: the next listed turn, or, with none listed, the HOST, as often as
a free value says, and then the ENGINE (R10, R184; log 1, log 14). -/
def State.takeTurn (s : State) : Agent × State :=
  match s.turns with
  | a :: rest => (a, { s with turns := rest })
  | [] =>
    match s.engineWait with
    | some n => s.waitTurn n
    | none => ({ s with drawn := s.drawn + 1 }).waitTurn (Config.hostSteps s.drawn)

/-- What a delivery comes to: the decoded command; REJECTED for a reserved tag or reserved bits (R83, R213); or
no command at all (R72, I10; log 6). -/
def fetchDelivery (words : List Word) (s : State) : Fetched :=
  match decodeCommand words with
  | .ok i => .run i s
  | .error .transport => .stop .transportError
  | .error .reservedTag => .done (s.raise (.rejected .reservedTag))
  | .error .reservedBits => .done (s.raise (.rejected .reservedBits))
  | .error .reservedMicroOp => .stop .transportError

/-- `s` with the next input listed: where none is and the HOST goes on, it is a free value (R10; log 1). -/
def State.lookAhead (s : State) : State :=
  match s.inputs with
  | _ :: _ => s
  | [] => if s.endless then { s with inputs := [Config.hostInput s.drawn], drawn := s.drawn + 1 } else s

/-- The HOST's step, its next input listed: the next sub-step of the command in progress, which no other command
may overtake (R137) but a loss of power cuts off (R224; log 13), else the input. -/
def fetchInput (s : State) : Fetched :=
  match s.busy with
  | some r =>
    match s.inputs with
    | .powerCycle 0 :: rest => .done ({ s with inputs := rest }).powerCycle
    | .powerCycle (k + 1) :: rest => .done (({ s with inputs := .powerCycle k :: rest }).replacementStep r)
    | .command _ :: _ => .done (s.replacementStep r)
    | [] => .done (s.replacementStep r)
  | none =>
    match s.inputs with
    | [] => .done s
    | .powerCycle _ :: rest => .done ({ s with inputs := rest }).powerCycle
    | .command words :: rest => fetchDelivery words { s with inputs := rest }

/-- The HOST's step. -/
def fetchHost (s : State) : Fetched := fetchInput s.lookAhead

/-- The micro-operation the sequencer performs next: SCAN_POLL at the row boundary, else SCAN_WRITE(mpc - 1)
(R170). -/
def Block.scanOp (b : Block) : Instr :=
  if h : b.mpc = 0 then .scanPoll else .scanWrite (b.mpc.pred h)

/-- The ENGINE's step. -/
def fetchEngine (s : State) : Fetched := .run s.block.scanOp s

/-- A micro-operation word performed alone; a reserved one is refused (R80, I9b; log 8). -/
def fetchMicroOp (w : BitVec 16) (s : State) : Fetched :=
  match decodeMicroOp w with
  | .ok i => .run i s
  | .error _ => .stop (.reservedMicroOp w)

/-- The next step. With neither agent ready the block is quiescent, and nothing changes (R185; log 2). -/
def fetch (s : State) : Fetched :=
  match s.uop with
  | some w => fetchMicroOp w { s with uop := none }
  | none =>
    match s.hostReady, s.engineReady with
    | false, false => .done s
    | true, false => fetchHost s
    | false, true => fetchEngine s
    | true, true =>
      match s.takeTurn with
      | (.host, s') => fetchHost s'
      | (.engine, s') => fetchEngine s'

/-- Give agent `a` the next step, if it would otherwise be contested. -/
def State.giveTurn (s : State) (a : Agent) : State :=
  if s.hostReady && s.engineReady then { s with turns := a :: s.turns } else s

/-- `s` with a unit placed where the next step finds it. A command is the HOST's next input, with no command in
progress. SCAN_POLL and SCAN_WRITE(n) are never words in a place: the sequencer generates them (R80), so it is
set to generate that one. The link operations are named words only (R79): the word is given alone (log 8). -/
def placeUnit (u : CodeUnit) (s : State) : State :=
  match u with
  | .command words =>
    ({ s with uop := none, busy := none, inputs := .command words :: s.inputs }).giveTurn .host
  | .microOp w =>
    match decodeMicroOp w with
    | .ok .scanPoll =>
      ({ s with uop := none, block := { s.block with constructed := true, engActive := true, mpc := 0 } }).giveTurn
        .engine
    | .ok (.scanWrite n) =>
      ({ s with
          uop := none
          block := { s.block with constructed := true, engActive := true, mpc := n.succ } }).giveTurn .engine
    | _ => { s with uop := some w }

end Sys2Proof.Machine
end

