-- ==== Sys2Proof/Machine/Step.lean ====
section
/-! DEFINITION. One step of the machine: one step of one agent (00_scope.md R10). -/

namespace Sys2Proof.Machine

/-- Fetch, then execute what was fetched. -/
def step (s : State) : Host.Outcome State Fault Refusal :=
  match fetch s with
  | .run i s' => exec i s'
  | .done s' => .next s'
  | .stop r => .refused r

/-- `s` with the instruction of an opcode-table word placed so that the next step runs it. -/
def State.withFetchWord (s : State) (nbits w : Nat) : State := placeUnit (tableUnit nbits w) s

end Sys2Proof.Machine
end

