-- ==== Sys2Proof/Safety.lean ====
section
/-! DEFINITION. The terms claims are stated in: the four lifecycle states (42_scan.md R176), the invariants the
spec gives (10_state.md R33), the shape of the pin history, and runs of several steps. -/

namespace Sys2Proof.Machine

/-- The reachable lifecycle states (R176). -/
inductive Lifecycle where
  | quiet
  | scanning
  | draining
  | restarting
  deriving DecidableEq, Repr

/-- The lifecycle state of a block; `none` for a combination R176 says is not reachable. -/
def Block.lifecycle (b : Block) : Option Lifecycle :=
  match b.scanState, b.engActive, b.cancel, b.restartPending with
  | .idle, false, false, false => some .quiet
  | .scanning, true, false, false => some .scanning
  | .idle, true, true, false => some .draining
  | .scanning, true, true, true => some .restarting
  | _, _, _, _ => none

/-- INV1 to INV6 of R33 and the lifecycle states of R176. INV7, at most one engine, is in the type: the block
holds one flag `eng_active`. -/
structure Block.Inv (b : Block) : Prop where
  inv1 : b.scanState = .scanning → b.engActive = true
  inv2 : b.scanState = .scanning → b.cancel = true → b.restartPending = true
  inv3 : b.scanState = .idle → b.restartPending = false
  inv4 : b.scanState = .idle → b.engActive = true → b.cancel = true
  inv5 : b.engActive = false → b.mpc = 0 ∧ b.cancel = false ∧ b.restartPending = false
  inv6 : b.constructed = false → b.engActive = false ∧ b.scanState = .idle ∧ b.trace = []
  reachable : b.lifecycle ≠ none

/-- The invariant of the whole machine: the block's; no micro-operation word stands outside the sequencer (R80);
and a per_row replacement belongs to a constructed block, and every row it has no longer to write holds its
new byte (R137). -/
structure State.Inv (s : State) : Prop where
  block : s.block.Inv
  noMicroOp : s.uop = none
  busyConstructed : ∀ r, s.busy = some r → s.block.constructed = true
  busyWritten : ∀ r, s.busy = some r → ∀ i : Row, i ∈ r.left ∨ s.block.bufRead i = r.rows[i.toNat]'i.isLt

/-- Rows in scan order (R183), newest first, before row `r`: the first row of all is 0, and each row is the one
after the row before it, modulo 8, or row 0 of a fresh scan. -/
def rowsInOrder : List Row → Row → Prop
  | [], r => r = 0
  | last :: earlier, r => (r = last + 1 ∨ r = 0) ∧ rowsInOrder earlier last

/-- The whole pin history is a sequence of complete row presentations, in scan order, followed by the first
`mpc - 1` writes of the row in flight, whose selector is `1 << row` (R62, R81, R105, R181, R183). `frames` lists
the completed rows with their column bytes, newest first. -/
def Block.TraceOk (b : Block) : Prop :=
  ∃ frames : List (Row × Byte),
    b.trace =
        (frames.reverse.flatMap fun f => rowWrites (selector f.1) f.2) ++
          (rowWrites b.curSel b.curCol).take (b.mpc.val - 1) ∧
      rowsInOrder (frames.map Prod.fst) b.row ∧
      (b.mpc ≠ 0 → b.curSel = selector b.row)

/-- Everything of the state but the block and the responses is the same. -/
def SameOutside (s t : State) : Prop :=
  t.cascade = s.cascade ∧ t.params = s.params ∧ t.inputs = s.inputs ∧ t.endless = s.endless ∧
    t.busy = s.busy ∧ t.turns = s.turns ∧ t.engineWait = s.engineWait ∧ t.picks = s.picks ∧ t.drawn = s.drawn ∧
    t.uop = s.uop

/-- Everything of the state but the block, the cascade and the responses is the same. -/
def SamePort (s t : State) : Prop :=
  t.params = s.params ∧ t.inputs = s.inputs ∧ t.endless = s.endless ∧ t.busy = s.busy ∧ t.turns = s.turns ∧
    t.engineWait = s.engineWait ∧ t.picks = s.picks ∧ t.drawn = s.drawn ∧ t.uop = s.uop

/-- The HOST has nothing to do now or later, so every step is the ENGINE's. -/
def EngineAlone (s : State) : Prop := s.uop = none ∧ s.busy = none ∧ s.inputs = [] ∧ s.endless = false

/-- The flags and the sequencer after StartScanIfIdle (R177), from those before: nothing while Scanning; a
pending restart while the engine drains; a fresh scan at row 0 from full idle. -/
def ScanStarted (b b' : Block) : Prop :=
  b'.scanState = .scanning ∧
    (b.scanState = .scanning →
      b'.engActive = b.engActive ∧ b'.cancel = b.cancel ∧ b'.restartPending = b.restartPending ∧
        b'.row = b.row ∧ b'.mpc = b.mpc) ∧
    (b.scanState = .idle → b.engActive = true →
      b'.engActive = true ∧ b'.cancel = b.cancel ∧ b'.restartPending = true ∧ b'.row = b.row ∧ b'.mpc = b.mpc) ∧
    (b.scanState = .idle → b.engActive = false →
      b'.engActive = true ∧ b'.cancel = false ∧ b'.restartPending = false ∧ b'.row = 0 ∧ b'.mpc = 0)

/-- What no producer command but CONSTRUCT touches: the pins and their history, the frame in flight, the
identifiers and the construction state (R30, R31, R179). -/
def SamePinSide (b b' : Block) : Prop :=
  b'.constructed = b.constructed ∧ b'.pinIdDs = b.pinIdDs ∧ b'.pinIdStcp = b.pinIdStcp ∧
    b'.pinIdShcp = b.pinIdShcp ∧ b'.lvlDs = b.lvlDs ∧ b'.lvlShcp = b.lvlShcp ∧ b'.lvlStcp = b.lvlStcp ∧
    b'.curSel = b.curSel ∧ b'.curCol = b.curCol ∧ b'.trace = b.trace

/-- What a link operation may change of the block: the levels and the history (R100, R108). -/
def OnlyPins (b b' : Block) : Prop :=
  b' = { b with lvlDs := b'.lvlDs, lvlShcp := b'.lvlShcp, lvlStcp := b'.lvlStcp, trace := b'.trace }

/-- The HOST has `n` contested steps in `s` before the ENGINE's next one, which leaves `s'`: those it still has, or,
where it has not begun, as many as the free value says (R10, R184; log 1). -/
def WaitIs (s : State) (n : Nat) (s' : State) : Prop :=
  (s.engineWait = some n ∧ s' = s) ∨
    (s.engineWait = none ∧ n = Config.hostSteps s.drawn ∧ s' = { s with drawn := s.drawn + 1 })

/-- The next step of `s` is agent `a`'s, which takes it from `s'` (R10, R170): the only one that can move, or, of
two that can, the next listed one, or, with none listed, the HOST while it has contested steps left and then the
ENGINE. -/
def TurnIs (s : State) (a : Agent) (s' : State) : Prop :=
  let hostCan := s.busy ≠ none ∨ s.inputs ≠ [] ∨ s.endless = true
  let engineCan := s.block.constructed = true ∧ s.block.engActive = true
  s.uop = none ∧
    ((hostCan ∧ ¬engineCan ∧ a = .host ∧ s' = s) ∨
      (¬hostCan ∧ engineCan ∧ a = .engine ∧ s' = s) ∨
      (hostCan ∧ engineCan ∧ ∃ turns, s.turns = a :: turns ∧ s' = { s with turns := turns }) ∨
      (hostCan ∧ engineCan ∧ s.turns = [] ∧ ∃ n s₁, WaitIs s n s₁ ∧
        ((n = 0 ∧ a = .engine ∧ s' = { s₁ with engineWait := none }) ∨
          ∃ m, n = m + 1 ∧ a = .host ∧ s' = { s₁ with engineWait := some m })))

/-- `s'` is `s` with the HOST's next input listed: a listed one, or none to come, or, with none listed and more to
come, the free value (R10; log 1). -/
def AheadIs (s s' : State) : Prop :=
  ((s.inputs ≠ [] ∨ s.endless = false) ∧ s' = s) ∨
    (s.inputs = [] ∧ s.endless = true ∧
      s' = { s with inputs := [Config.hostInput s.drawn], drawn := s.drawn + 1 })

/-- The next step of `s` is the HOST's, which takes it from `s'`, its next input listed. -/
def HostTurnIs (s s' : State) : Prop := ∃ s₁, TurnIs s .host s₁ ∧ AheadIs s₁ s'

/-- The choice the next row write of a per_row replacement takes in `s` is `k`, and taking it leaves `s'`: the next
listed one, or, with none listed, the free value (R137; log 4). -/
def PickIs (s : State) (k : Nat) (s' : State) : Prop :=
  (∃ picks, s.picks = k :: picks ∧ s' = { s with picks := picks }) ∨
    (s.picks = [] ∧ k = Config.rowPick s.drawn ∧ s' = { s with drawn := s.drawn + 1 })

/-- A SET_IMAGE_* that passes its length and payload checks (R132, R133). -/
def GoodImage (i : Instr) : Prop :=
  (∃ p, i = .setImageFlat p ∧ p.length = 64) ∨
    (∃ p, i = .setImagePacked p ∧ p.length = 8 ∧ ∀ w ∈ p, w.toNat < 256)

/-- `k` steps of the machine, ending early where one gives no next state. -/
def runSteps : Nat → State → Host.Outcome State Fault Refusal
  | 0, s => .next s
  | k + 1, s =>
    match step s with
    | .next t => runSteps k t
    | .fault r => .fault r
    | .refused r => .refused r

/-- An infinite execution (R10): each state is the one the step before it answers. -/
def IsRun (f : Nat → State) : Prop := ∀ k, step (f k) = .next (f (k + 1))

/-- Weak fairness (R184): if `eng_active` stays true from some point on, the ENGINE takes infinitely many steps. -/
def FairToEngine (f : Nat → State) : Prop :=
  (∃ n, ∀ k, n ≤ k → (f k).block.engActive = true) → ∀ n, ∃ k, n ≤ k ∧ ∃ s', TurnIs (f k) .engine s'

end Sys2Proof.Machine
end

