-- ==== Sys2Proof/Certificates/Slice0/Obligations.lean ====
section
/-! DEFINITION. The statements for the provers, from the numbered rules of spec/. -/

open Sys2Proof Sys2Proof.Machine

/-! ### Encoding -/

/-- R71 to R75, R79: the decoder reads back every well-formed instruction from its words. -/
def Obligations.DecodeOfEncode : Prop :=
  ∀ i : Instr, i.wellFormed = true → decode (encode i) = .ok i

/-- R74, R79, R80: a unit the decoder accepts is exactly the encoding of what it reads; no two units, and no
reserved one, share a meaning. -/
def Obligations.EncodeOfDecode : Prop :=
  ∀ (u : CodeUnit) (i : Instr), decode u = .ok i → encode i = u ∧ i.wellFormed = true

/-- Words of R84 and of the vectors V-R4, V-R7, V-R8, V-E16 to V-E18. -/
def Obligations.SpecWordsDecode : Prop :=
  decode (.command [0x00030000, 10, 11, 12]) = .ok (.construct [10, 11, 12]) ∧
  decode (.command [0x00010003, 1]) = .ok (.clear [1]) ∧
  decode (.command [0x00000004]) = .ok (.stop []) ∧
  decode (.command [0x00000005]) = .ok (.readBuffer []) ∧
  decode (.command [0x0000000C]) = .error .reservedTag ∧
  decode (.command [0x00000017]) = .error .reservedTag ∧
  decode (.command [0x00000014]) = .error .reservedBits ∧
  decode (.microOp 0x0058) = .ok (.pinWrite .shcp true) ∧
  decode (.microOp 0xA509) = .ok (.pushByte 0xA5) ∧
  decode (.microOp 0x000A) = .ok .latch ∧
  decode (.microOp 0x817B) = .ok (.presentRow 7 0x81) ∧
  decode (.microOp 0x000C) = .ok .scanPoll ∧
  decode (.microOp 0x310D) = .ok (.scanWrite 49)

/-- R80: the reserved micro-operation words, by their fields, and what the machine does with one. -/
def Obligations.ReservedMicroOpRefused : Prop :=
  ∀ (s : State) (w : BitVec 16), s.uop = some w →
    (w.toNat % 16 < 8 ∨ 14 ≤ w.toNat % 16 ∨
      (w.toNat % 16 = 8 ∧ (w.toNat / 16 % 4 = 3 ∨ w.toNat / 128 ≠ 0)) ∨
      (w.toNat % 16 = 9 ∧ w.toNat / 16 % 16 ≠ 0) ∨
      (w.toNat % 16 = 10 ∧ w.toNat / 16 ≠ 0) ∨
      (w.toNat % 16 = 11 ∧ w.toNat / 128 % 2 ≠ 0) ∨
      (w.toNat % 16 = 12 ∧ w.toNat / 16 ≠ 0) ∨
      (w.toNat % 16 = 13 ∧ (w.toNat / 16 % 16 ≠ 0 ∨ 50 ≤ w.toNat / 256))) →
    step s = .refused (.reservedMicroOp w)

/-! ### Producer commands -/

/-- R131, R36: CONSTRUCT on an unconstructed block with three distinct identifiers leaves every element at its
reset value, answers OK, and is no pin write. -/
def Obligations.ConstructResetsBlock : Prop :=
  ∀ (s : State) (ds stcp shcp : Word),
    s.busy = none → s.block.constructed = false → ds ≠ stcp → ds ≠ shcp → stcp ≠ shcp →
    ∃ t, exec (.construct [ds, stcp, shcp]) s = .next t ∧
      t.block.constructed = true ∧
      t.block.pinIdDs = ds ∧ t.block.pinIdStcp = stcp ∧ t.block.pinIdShcp = shcp ∧
      t.block.lvlDs = false ∧ t.block.lvlShcp = false ∧ t.block.lvlStcp = false ∧
      (∀ r : Row, t.block.bufRead r = 0x00) ∧
      t.block.scanState = .idle ∧ t.block.cancel = false ∧ t.block.restartPending = false ∧
      t.block.engActive = false ∧ t.block.row = 0 ∧ t.block.mpc = 0 ∧
      t.block.curSel = 0x00 ∧ t.block.curCol = 0x00 ∧ t.block.trace = [] ∧
      t.block.lifecycle = some .quiet ∧
      t.outputs = s.outputs ++ [[0]] ∧ SameOutside s t

/-- R131, R213: when CONSTRUCT is REJECTED; nothing but the response changes. -/
def Obligations.ConstructRejected : Prop :=
  ∀ (s : State) (payload : List Word), s.busy = none →
    (s.block.constructed = true ∨ payload.length ≠ 3 ∨
      (∃ ds stcp shcp, payload = [ds, stcp, shcp] ∧ (ds = stcp ∨ ds = shcp ∨ stcp = shcp))) →
    exec (.construct payload) s = .next { s with outputs := s.outputs ++ [[2]] }

/-- R132, R78, R177 (BUFFER_WRITE_MODE = atomic): SET_IMAGE_FLAT with 64 cells replaces every row, bit j of
row i set iff cell i*8+j is exactly 1, starts the scan if Idle, and answers OK. -/
def Obligations.SetImageFlatReplacesImage : Prop :=
  ∀ (s : State) (cells : List Word), s.busy = none → s.params.bufferWriteMode = .atomic →
    s.block.constructed = true → cells.length = 64 →
    ∃ t, exec (.setImageFlat cells) s = .next t ∧
      (∀ (i : Row) (j : Nat), j < 8 →
        (t.block.bufRead i).getLsbD j = decide (cells[i.toNat * 8 + j]? = some 1)) ∧
      ScanStarted s.block t.block ∧ SamePinSide s.block t.block ∧
      t.outputs = s.outputs ++ [[0]] ∧ SameOutside s t

/-- R133, R177 (BUFFER_WRITE_MODE = atomic): SET_IMAGE_PACKED with 8 words whose bits [31:8] are 0 stores
them as the rows, starts the scan if Idle, and answers OK. -/
def Obligations.SetImagePackedReplacesImage : Prop :=
  ∀ (s : State) (words : List Word), s.busy = none → s.params.bufferWriteMode = .atomic →
    s.block.constructed = true → words.length = 8 → (∀ w ∈ words, w.toNat < 256) →
    ∃ t, exec (.setImagePacked words) s = .next t ∧
      (∀ i : Row, words[i.toNat]? = some ((t.block.bufRead i).setWidth 32)) ∧
      ScanStarted s.block t.block ∧ SamePinSide s.block t.block ∧
      t.outputs = s.outputs ++ [[0]] ∧ SameOutside s t

/-- R134 (BUFFER_WRITE_MODE = atomic): CLEAR fills every row and touches nothing else. -/
def Obligations.ClearFillsImage : Prop :=
  ∀ (s : State) (w : Word), s.busy = none → s.params.bufferWriteMode = .atomic →
    s.block.constructed = true →
    ∃ t, exec (.clear [w]) s = .next t ∧
      (∀ i : Row, t.block.bufRead i = if w = 1 then 0xFF else 0x00) ∧
      t.block = { s.block with buf := t.block.buf } ∧
      t.outputs = s.outputs ++ [[0]] ∧ SameOutside s t

/-- R135, R178: STOP while Scanning sets Idle and `cancel` and withdraws a pending restart; STOP while Idle
changes nothing; both answer OK at once. -/
def Obligations.StopRequestsCancel : Prop :=
  ∀ s : State, s.busy = none → s.block.constructed = true →
    ∃ t, exec (.stop []) s = .next t ∧
      (s.block.scanState = .scanning →
        t.block = { s.block with scanState := .idle, cancel := true, restartPending := false }) ∧
      (s.block.scanState = .idle → t.block = s.block) ∧
      t.outputs = s.outputs ++ [[0]] ∧ SameOutside s t

/-- R136, R76: READ_BUFFER answers OK and the eight row bytes, zero-extended, row 0 first, and changes
nothing. -/
def Obligations.ReadBufferAnswersRows : Prop :=
  ∀ s : State, s.busy = none → s.block.constructed = true →
    exec (.readBuffer []) s =
      .next { s with
        outputs := s.outputs ++
          [[0, (s.block.bufRead 0).setWidth 32, (s.block.bufRead 1).setWidth 32,
            (s.block.bufRead 2).setWidth 32, (s.block.bufRead 3).setWidth 32,
            (s.block.bufRead 4).setWidth 32, (s.block.bufRead 5).setWidth 32,
            (s.block.bufRead 6).setWidth 32, (s.block.bufRead 7).setWidth 32]] }

/-- R211: the wrong length on SET_IMAGE_FLAT or SET_IMAGE_PACKED, in either buffer write mode and whatever the
payload holds, returns INVALID_SIZE and changes nothing else; and nothing else returns it. -/
def Obligations.WrongImageLengthIsInvalidSize : Prop :=
  (∀ (s : State) (payload : List Word), s.busy = none → s.block.constructed = true →
    (payload.length ≠ 64 →
      exec (.setImageFlat payload) s = .next { s with outputs := s.outputs ++ [[1]] }) ∧
    (payload.length ≠ 8 →
      exec (.setImagePacked payload) s = .next { s with outputs := s.outputs ++ [[1]] })) ∧
  (∀ (s t : State) (i : Instr) (data : List Word), exec i s = .next t → t.outputs = s.outputs ++ [1 :: data] →
    (∃ p, i = .setImageFlat p ∧ p.length ≠ 64) ∨ (∃ p, i = .setImagePacked p ∧ p.length ≠ 8))

/-- R212, R213: the commands before CONSTRUCT, whatever their length; the wrong length on CLEAR, STOP and
READ_BUFFER; a packed word that is no byte. REJECTED, and nothing else changes. -/
def Obligations.RejectedCommandsChangeNothing : Prop :=
  ∀ (s : State) (payload : List Word), s.busy = none →
    (s.block.constructed = false →
      exec (.setImageFlat payload) s = .next { s with outputs := s.outputs ++ [[2]] } ∧
      exec (.setImagePacked payload) s = .next { s with outputs := s.outputs ++ [[2]] } ∧
      exec (.clear payload) s = .next { s with outputs := s.outputs ++ [[2]] } ∧
      exec (.stop payload) s = .next { s with outputs := s.outputs ++ [[2]] } ∧
      exec (.readBuffer payload) s = .next { s with outputs := s.outputs ++ [[2]] }) ∧
    (s.block.constructed = true →
      (payload.length ≠ 1 → exec (.clear payload) s = .next { s with outputs := s.outputs ++ [[2]] }) ∧
      (payload.length ≠ 0 → exec (.stop payload) s = .next { s with outputs := s.outputs ++ [[2]] }) ∧
      (payload.length ≠ 0 → exec (.readBuffer payload) s = .next { s with outputs := s.outputs ++ [[2]] }) ∧
      (payload.length = 8 → (∃ w ∈ payload, 256 ≤ w.toNat) →
        exec (.setImagePacked payload) s = .next { s with outputs := s.outputs ++ [[2]] }))

/-- R137 (BUFFER_WRITE_MODE = per_row): the first sub-step of a replacement writes one row, the one the next
pick selects, and answers nothing yet. It is any of the eight, as the pick is any number. -/
def Obligations.PerRowFirstSubStep : Prop :=
  ∀ (s s' : State) (payload : List Word) (k : Nat), s.busy = none →
    s.params.bufferWriteMode = .perRow → s.block.constructed = true → PickIs s k s' →
    let row : Row := BitVec.ofNat 3 k
    (payload.length = 64 →
      exec (.setImageFlat payload) s =
        .next { s' with
          block := s.block.bufWriteRow row ((packFlat payload)[row.toNat]'row.isLt)
          busy := some ⟨packFlat payload, allRows.erase row, true⟩ }) ∧
    (payload.length = 8 → (∀ w ∈ payload, w.toNat < 256) →
      exec (.setImagePacked payload) s =
        .next { s' with
          block := s.block.bufWriteRow row ((packedRows payload)[row.toNat]'row.isLt)
          busy := some ⟨packedRows payload, allRows.erase row, true⟩ }) ∧
    (∀ w, payload = [w] →
      exec (.clear payload) s =
        .next { s' with
          block := s.block.bufWriteRow row (if w = 1 then 0xFF else 0x00)
          busy := some ⟨Vector.replicate 8 (if w = 1 then 0xFF else 0x00), allRows.erase row, false⟩ })

/-- R137: with no ENGINE step between its sub-steps (the engine not active, or the turns the HOST's) and no loss of
power within them (the coming inputs are known, log 1, and a power cycle among them waits for eight sub-steps,
log 13), a per_row replacement ends after nine HOST sub-steps in the block and the response of the atomic one,
whatever order its rows were written in (listed picks or free values). -/
def Obligations.PerRowEndsAsAtomic : Prop :=
  ∀ (s t : State) (i : Instr),
    (GoodImage i ∨ ∃ w, i = .clear [w]) → s.uop = none → s.busy = none → s.block.constructed = true →
    (s.block.engActive = false ∨ ∃ later, s.turns = List.replicate 8 .host ++ later) →
    (s.inputs = [] → s.endless = false) → (∀ k rest, s.inputs = .powerCycle k :: rest → 8 ≤ k) →
    s.params.bufferWriteMode = .perRow →
    exec i { s with params := { s.params with bufferWriteMode := .atomic } } = .next t →
    ∃ u v, exec i s = .next u ∧ runSteps 8 u = .next v ∧
      v.block = t.block ∧ v.outputs = t.outputs ∧ v.busy = none ∧
      ((∀ k rest, s.inputs ≠ .powerCycle k :: rest) → v.inputs = s.inputs) ∧
      (∀ k rest, s.inputs = .powerCycle (k + 8) :: rest → v.inputs = .powerCycle k :: rest) ∧
      v.cascade = s.cascade ∧ v.params = s.params

/-- R137: no other HOST command starts while a replacement is in progress; each is turned away by name. -/
def Obligations.NoCommandOverlapsReplacement : Prop :=
  ∀ (s : State) (r : Replacement) (payload : List Word), s.busy = some r →
    ∀ i ∈ [Instr.construct payload, .setImageFlat payload, .setImagePacked payload, .clear payload,
        .stop payload, .readBuffer payload],
      exec i s = .refused .hostBusy

/-! ### Link operations -/

/-- R101, R31, R220: PIN_WRITE drives its line, appends exactly one event even where the level does not change,
and leaves every other line and element alone; the cascade shifts DS in at SHCP's rise and copies its stages
out at STCP's (the spec marks the cascade general knowledge, log 12). -/
def Obligations.PinWriteDrivesOneLine : Prop :=
  ∀ (s : State) (p : Pin) (v : Level),
    ∃ t, exec (.pinWrite p v) s = .next t ∧
      t.block =
        { s.block with
          lvlDs := if p = .ds then v else s.block.lvlDs
          lvlShcp := if p = .shcp then v else s.block.lvlShcp
          lvlStcp := if p = .stcp then v else s.block.lvlStcp
          trace := s.block.trace ++ [(p, v)] } ∧
      t.cascade.sr =
        (if p = .shcp ∧ v = true ∧ s.block.lvlShcp = false then
          (s.cascade.sr <<< 1) ||| (BitVec.ofBool s.block.lvlDs).setWidth 16
        else s.cascade.sr) ∧
      t.cascade.q =
        (if p = .stcp ∧ v = true ∧ s.block.lvlStcp = false then s.cascade.sr else s.cascade.q) ∧
      t.outputs = s.outputs ∧ SamePort s t

/-- R102, R53, R108: PUSH_BYTE's 24 pin writes, bit 7 first, each bit followed by one SHCP pulse; nothing else of
the block changes but the levels they leave. That the cascade's outputs stay is R220's, which the spec marks general
knowledge (log 12). -/
def Obligations.PushByteWritesMsbFirst : Prop :=
  ∀ (s : State) (b : Byte),
    ∃ t, exec (.pushByte b) s = .next t ∧
      t.block =
        { s.block with
          lvlDs := b.getLsbD 0
          lvlShcp := true
          trace := s.block.trace ++
            [(.ds, b.getLsbD 7), (.shcp, false), (.shcp, true), (.ds, b.getLsbD 6), (.shcp, false), (.shcp, true),
             (.ds, b.getLsbD 5), (.shcp, false), (.shcp, true), (.ds, b.getLsbD 4), (.shcp, false), (.shcp, true),
             (.ds, b.getLsbD 3), (.shcp, false), (.shcp, true), (.ds, b.getLsbD 2), (.shcp, false), (.shcp, true),
             (.ds, b.getLsbD 1), (.shcp, false), (.shcp, true), (.ds, b.getLsbD 0), (.shcp, false), (.shcp, true)] } ∧
      t.cascade.q = s.cascade.q ∧ t.outputs = s.outputs ∧ SamePort s t

/-- R103: LATCH is one STCP pulse; it touches neither DS nor SHCP. -/
def Obligations.LatchPulsesStcp : Prop :=
  ∀ s : State,
    ∃ t, exec .latch s = .next t ∧
      t.block =
        { s.block with lvlStcp := true, trace := s.block.trace ++ [(.stcp, false), (.stcp, true)] } ∧
      t.cascade = { s.cascade with q := s.cascade.sr } ∧ t.outputs = s.outputs ∧ SamePort s t

/-- R104, R81: PRESENT_ROW performs exactly the fifty writes of seqW, in order, with the one-hot selector, and
changes nothing else of the block. -/
def Obligations.PresentRowIsSeqW : Prop :=
  ∀ (s : State) (r : Row) (b sel : Byte), sel.toNat = 2 ^ r.toNat →
    ∃ t, exec (.presentRow r b) s = .next t ∧
      t.block =
        { s.block with
          lvlDs := b.getLsbD 0
          lvlShcp := true
          lvlStcp := true
          trace := s.block.trace ++ List.ofFn (seqW sel b) } ∧
      t.outputs = s.outputs ∧ SamePort s t

/-- R107: PRESENT_ROW's pulse counts and their order: 16 SHCP pulses, then exactly one STCP pulse; the
selector's eight bits before any bit of the row byte. -/
def Obligations.PresentRowPulseCounts : Prop :=
  ∀ (s t : State) (r : Row) (b : Byte), exec (.presentRow r b) s = .next t →
    ∃ sel byte : List (Pin × Level),
      t.block.trace = s.block.trace ++ sel ++ byte ++ [(.stcp, false), (.stcp, true)] ∧
      sel.length = 24 ∧ byte.length = 24 ∧
      (∀ e ∈ sel ++ byte, e.1 ≠ .stcp) ∧
      (sel ++ byte).countP (fun e => e == (.shcp, true)) = 16 ∧
      (sel ++ byte).countP (fun e => e == (.shcp, false)) = 16 ∧
      (∀ m : Fin 8,
        sel[3 * m.val]? = some (.ds, decide (7 - m.val = r.toNat)) ∧
        sel[3 * m.val + 1]? = some (.shcp, false) ∧ sel[3 * m.val + 2]? = some (.shcp, true) ∧
        byte[3 * m.val]? = some (.ds, b.getLsbD (7 - m.val)) ∧
        byte[3 * m.val + 1]? = some (.shcp, false) ∧ byte[3 * m.val + 2]? = some (.shcp, true))

/-- R108: the levels after each link operation, whatever they were before, and that it changes nothing of the
block but the levels and the history. -/
def Obligations.LevelsAfterLinkOps : Prop :=
  ∀ (s : State) (p : Pin) (v : Level) (r : Row) (b : Byte),
    (∃ t, exec (.pinWrite p v) s = .next t ∧ OnlyPins s.block t.block ∧
      t.block.lvlDs = (if p = .ds then v else s.block.lvlDs) ∧
      t.block.lvlShcp = (if p = .shcp then v else s.block.lvlShcp) ∧
      t.block.lvlStcp = (if p = .stcp then v else s.block.lvlStcp)) ∧
    (∃ t, exec (.pushByte b) s = .next t ∧ OnlyPins s.block t.block ∧
      t.block.lvlDs = b.getLsbD 0 ∧ t.block.lvlShcp = true ∧ t.block.lvlStcp = s.block.lvlStcp) ∧
    (∃ t, exec .latch s = .next t ∧ OnlyPins s.block t.block ∧
      t.block.lvlDs = s.block.lvlDs ∧ t.block.lvlShcp = s.block.lvlShcp ∧ t.block.lvlStcp = true) ∧
    (∃ t, exec (.presentRow r b) s = .next t ∧ OnlyPins s.block t.block ∧
      t.block.lvlDs = b.getLsbD 0 ∧ t.block.lvlShcp = true ∧ t.block.lvlStcp = true)

/-- R82: frame bit F[15-m] is on DS at the (m+1)-th SHCP rising write of a row, F the selector and then the
column byte, and one STCP pulse follows. -/
def Obligations.FrameGoesOutFromBit15 : Prop :=
  ∀ (sel col : Byte),
    (∀ m : Fin 16,
      seqW sel col ⟨3 * m.val, by omega⟩ = (.ds, (sel ++ col : BitVec 16).getLsbD (15 - m.val)) ∧
      seqW sel col ⟨3 * m.val + 1, by omega⟩ = (.shcp, false) ∧
      seqW sel col ⟨3 * m.val + 2, by omega⟩ = (.shcp, true)) ∧
    seqW sel col 48 = (.stcp, false) ∧ seqW sel col 49 = (.stcp, true)

/-- R221 (through the external cascade, which the spec marks general knowledge, log 12): after a row
presentation the outputs show the selector and the row byte, whatever the cascade held; before its last write
they still show what they showed. -/
def Obligations.OutputsShowLatchedFrame : Prop :=
  ∀ (s : State) (r : Row) (b : Byte),
    (∃ t, exec (.presentRow r b) s = .next t ∧ t.cascade.q = (1#8 <<< r.toNat) ++ b ∧
      t.cascade.sr = (1#8 <<< r.toNat) ++ b) ∧
    (∀ k ≤ 49, (s.pinWrites ((List.ofFn (seqW (1#8 <<< r.toNat) b)).take k)).cascade.q = s.cascade.q)

/-! ### Scan engine -/

/-- R171, R174, R29: SCAN_POLL with nothing to honour captures the row's frame, once, and writes no pin. -/
def Obligations.ScanPollCapturesRow : Prop :=
  ∀ s : State, s.block.constructed = true → s.block.engActive = true → s.block.mpc = 0 →
    (s.block.cancel = false ∨ (s.params.cancelPoll = .perCycle ∧ s.block.row ≠ 0)) →
    ∃ t, exec .scanPoll s = .next t ∧
      t.block = { s.block with curSel := t.block.curSel, curCol := s.block.bufRead s.block.row, mpc := 1 } ∧
      t.block.curSel.toNat = 2 ^ s.block.row.toNat ∧
      t.outputs = s.outputs ∧ SameOutside s t

/-- R171, R174, R175: SCAN_POLL at a boundary that tests `cancel`, with `cancel` set: a restart at row 0 if one
is pending, else the engine's exit; no pin is written and no level changes. -/
def Obligations.ScanPollHonoursCancel : Prop :=
  ∀ s : State, s.block.constructed = true → s.block.engActive = true → s.block.mpc = 0 →
    s.block.cancel = true → (s.params.cancelPoll = .perRow ∨ s.block.row = 0) →
    ∃ t, exec .scanPoll s = .next t ∧
      t.block =
        { s.block with
          cancel := false, row := 0, restartPending := false, engActive := s.block.restartPending } ∧
      t.outputs = s.outputs ∧ SameOutside s t

/-- R172, R81, R173: SCAN_WRITE(n), where the sequencer stands at n + 1, performs pin write n of the row in
flight and advances the sequencer, from 50 to the next row's boundary; row 7 is followed by row 0. -/
def Obligations.ScanWriteAdvances : Prop :=
  ∀ (s : State) (n : Fin 50), s.block.constructed = true → s.block.engActive = true →
    s.block.mpc.val = n.val + 1 →
    ∃ t p v, exec (.scanWrite n) s = .next t ∧ exec (.pinWrite p v) s = .next { t with
        block := { t.block with row := s.block.row, mpc := s.block.mpc } } ∧
      (List.ofFn (seqW s.block.curSel s.block.curCol))[n.val]? = some (p, v) ∧
      (n.val < 49 → t.block.mpc.val = n.val + 2 ∧ t.block.row = s.block.row) ∧
      (n.val = 49 → t.block.mpc = 0 ∧ t.block.row.toNat = (s.block.row.toNat + 1) % 8)

/-- R170, R171, R172: where the ENGINE has no such step there is nothing to perform. -/
def Obligations.ScanOpsOnlyInSequence : Prop :=
  ∀ (s : State) (n : Fin 50),
    ((s.block.constructed = false ∨ s.block.engActive = false) →
      exec .scanPoll s = .refused .engineNotEnabled ∧ exec (.scanWrite n) s = .refused .engineNotEnabled) ∧
    (s.block.constructed = true → s.block.engActive = true →
      (s.block.mpc ≠ 0 → exec .scanPoll s = .refused .offSequence) ∧
      (s.block.mpc.val ≠ n.val + 1 → exec (.scanWrite n) s = .refused .offSequence))

/-! ### Steps -/

/-- R10: a HOST step with no command in progress runs the command that the next delivery, listed or free (log 1),
decodes to, which is then no longer awaited. -/
def Obligations.StepRunsDeliveredCommand : Prop :=
  ∀ (s s' : State) (words : List Word) (rest : List Input) (i : Instr),
    HostTurnIs s s' → s.busy = none → s'.inputs = .command words :: rest → decodeCommand words = .ok i →
    step s = exec i { s' with inputs := rest }

/-- R170: an ENGINE step runs SCAN_POLL at the row boundary and SCAN_WRITE(mpc - 1) inside a row. -/
def Obligations.StepRunsEngineOp : Prop :=
  ∀ s s' : State, TurnIs s .engine s' →
    (s.block.mpc = 0 → step s = exec .scanPoll s') ∧
    (∀ n : Fin 50, s.block.mpc.val = n.val + 1 → step s = exec (.scanWrite n) s')

/-- A micro-operation word given to the machine alone is performed as the instruction it encodes (log 8). -/
def Obligations.StepRunsMicroOpWord : Prop :=
  ∀ (s : State) (w : BitVec 16) (i : Instr), s.uop = some w → decodeMicroOp w = .ok i →
    step s = exec i { s with uop := none }

/-- R137: a HOST step with a replacement in progress, where power is not lost first, is its next sub-step: one more
row, the one the pick selects among those left, or, with none left, StartScanIfIdle where the command calls it and
the response OK. A loss of power still to come is one sub-step nearer (log 13). -/
def Obligations.StepContinuesReplacement : Prop :=
  ∀ (s s₁ s' : State) (r : Replacement), HostTurnIs s s₁ → s.busy = some r →
    (((∀ k rest, s₁.inputs ≠ .powerCycle k :: rest) ∧ s' = s₁) ∨
      ∃ k rest, s₁.inputs = .powerCycle (k + 1) :: rest ∧ s' = { s₁ with inputs := .powerCycle k :: rest }) →
    (∀ (s'' : State) (k : Nat) (row : Row), PickIs s' k s'' → r.left[k % r.left.length]? = some row →
      step s = .next { s'' with
        block := s.block.bufWriteRow row (r.rows[row.toNat]'row.isLt)
        busy := some { r with left := r.left.erase row } }) ∧
    (r.left = [] →
      ∃ t, step s = .next t ∧
        (r.startScan = true → ScanStarted s.block t.block ∧ SamePinSide s.block t.block ∧
          t.block.buf = s.block.buf) ∧
        (r.startScan = false → t.block = s.block) ∧
        t = { s' with block := t.block, busy := none, outputs := s.outputs ++ [[0]] })

/-- R83, R213: a delivery whose header has a reserved TAG or non-zero RSVD bits is answered REJECTED, and
nothing but the input and the response changes, constructed or not. -/
def Obligations.ReservedHeaderIsRejected : Prop :=
  ∀ (s s' : State) (h : Word) (payload : List Word) (rest : List Input),
    HostTurnIs s s' → s.busy = none → s'.inputs = .command (h :: payload) :: rest →
    payload.length = h.toNat / 65536 → (6 ≤ h.toNat % 16 ∨ h.toNat / 16 % 4096 ≠ 0) →
    step s = .next { s' with inputs := rest, outputs := s.outputs ++ [[2]] }

/-- R72: a delivery whose payload count differs from LEN is no command, and the model refuses it. -/
def Obligations.TransportErrorRefused : Prop :=
  ∀ (s s' : State) (words : List Word) (rest : List Input),
    HostTurnIs s s' → s.busy = none → s'.inputs = .command words :: rest →
    (words = [] ∨ ∃ h payload, words = h :: payload ∧ payload.length ≠ h.toNat / 65536) →
    step s = .refused .transportError

/-- R185, R170: with nothing from the HOST, a block whose engine has no step stays as it is. -/
def Obligations.QuiescentStepChangesNothing : Prop :=
  ∀ s : State, EngineAlone s → (s.block.constructed = false ∨ s.block.engActive = false) → step s = .next s

/-- R224, R240: after power was removed and came back, the block is in the power-up state, and a replacement
that was in progress is gone, without an answer. Power is lost at once, or when the command in progress has done the
sub-steps it was given (log 13). The values of the elements that R240 leaves unspecified are the model's choice
(log 10, log 11). -/
def Obligations.PowerCycleIsPowerUp : Prop :=
  ∀ (s s' : State) (k : Nat) (rest : List Input),
    HostTurnIs s s' → s'.inputs = .powerCycle k :: rest → (s.busy = none ∨ k = 0) →
    ∃ t, step s = .next t ∧ t.block.constructed = false ∧ t.block.engActive = false ∧
      t.block.scanState = .idle ∧ t.block.trace = [] ∧ t.busy = none ∧ t.outputs = s.outputs ∧
      t = { s' with
        block := State.reset.block, cascade := State.reset.cascade, inputs := rest, busy := none,
        engineWait := none }

/-- An opcode-table word placed in any state is what the next step runs, on that state but for what placing it
takes (log 8, log 9). -/
def Obligations.PlacedWordRunsNext : Prop :=
  ∀ (s : State) (nbits w : Nat) (i : Instr), decodeTableWord nbits w = some i →
    match i with
    | .scanPoll =>
      step (s.withFetchWord nbits w) = exec i { s with
        uop := none, block := { s.block with constructed := true, engActive := true, mpc := 0 } }
    | .scanWrite n =>
      step (s.withFetchWord nbits w) = exec i { s with
        uop := none, block := { s.block with constructed := true, engActive := true, mpc := n.succ } }
    | .pinWrite _ _ | .pushByte _ | .latch | .presentRow _ _ =>
      step (s.withFetchWord nbits w) = exec i { s with uop := none }
    | .construct _ | .setImageFlat _ | .setImagePacked _ | .clear _ | .stop _ | .readBuffer _ =>
      step (s.withFetchWord nbits w) = exec i { s with uop := none, busy := none }

/-! ### Whole-machine rules -/

/-- R179, R100, R130: a producer command writes no pin, and but for CONSTRUCT neither the pins' side nor the
frame in flight; the sequencer only where it starts a scan from full idle, to row 0. -/
def Obligations.CommandsNeverTouchPins : Prop :=
  ∀ (s t : State) (payload : List Word) (i : Instr),
    i ∈ [Instr.setImageFlat payload, .setImagePacked payload, .clear payload, .stop payload,
        .readBuffer payload] →
    exec i s = .next t →
      SamePinSide s.block t.block ∧ t.cascade = s.cascade ∧
      ((t.block.row = s.block.row ∧ t.block.mpc = s.block.mpc) ∨
        (s.block.scanState = .idle ∧ s.block.engActive = false ∧ t.block.row = 0 ∧ t.block.mpc = 0))

/-- R179: the engine's operations never write the row buffer, the lifecycle state or the construction state,
and never set `cancel`; they answer nothing. -/
def Obligations.EngineNeverWritesBuffer : Prop :=
  ∀ (s t : State) (n : Fin 50) (i : Instr), i ∈ [Instr.scanPoll, .scanWrite n] → exec i s = .next t →
    t.block.buf = s.block.buf ∧ t.block.scanState = s.block.scanState ∧
    t.block.constructed = s.block.constructed ∧ t.block.pinIdDs = s.block.pinIdDs ∧
    t.block.pinIdStcp = s.block.pinIdStcp ∧ t.block.pinIdShcp = s.block.pinIdShcp ∧
    (t.block.cancel = true → s.block.cancel = true) ∧
    (t.block.engActive = true → s.block.engActive = true) ∧ t.outputs = s.outputs ∧ SamePort s t

/-- R10, R31, R172: a step of the machine performs at most one pin write; the history is otherwise kept, or
emptied by a construction or a power-up. -/
def Obligations.StepWritesAtMostOnePin : Prop :=
  ∀ s t : State, s.uop = none → step s = .next t →
    t.block.trace = s.block.trace ∨ (∃ e, t.block.trace = s.block.trace ++ [e]) ∨
      (t.block.trace = [] ∧ (s.block.constructed = false ∨ t.block.constructed = false))

/-- R76, R77: a step returns at most one response, whose status word is 0, 1 or 2; after a status other than OK
there is nothing more. -/
def Obligations.StepAnswersAtMostOnce : Prop :=
  ∀ s t : State, step s = .next t →
    t.outputs = s.outputs ∨
      ∃ (status : Word) (data : List Word), t.outputs = s.outputs ++ [status :: data] ∧ status.toNat < 3 ∧
        (status ≠ 0 → data = [])

/-- R7, R37: no step writes the parameters; nor whether the HOST goes on for ever (R10; log 1). -/
def Obligations.StepKeepsParameters : Prop :=
  ∀ s t : State, step s = .next t → t.params = s.params ∧ t.endless = s.endless

/-- R176: the lifecycle transitions of the commands and of the engine, from every block that meets the
invariant (buffer replaced atomically). -/
def Obligations.LifecycleTransitions : Prop :=
  ∀ (s t : State) (i : Instr), s.block.Inv → s.params.bufferWriteMode = .atomic → exec i s = .next t →
    (GoodImage i → s.block.constructed = true →
      (s.block.lifecycle = some .quiet → t.block.lifecycle = some .scanning ∧ t.block.row = 0 ∧ t.block.mpc = 0) ∧
      (s.block.lifecycle = some .scanning → t.block.lifecycle = some .scanning) ∧
      (s.block.lifecycle = some .draining → t.block.lifecycle = some .restarting) ∧
      (s.block.lifecycle = some .restarting → t.block.lifecycle = some .restarting)) ∧
    (i = .stop [] → s.block.constructed = true →
      (s.block.lifecycle = some .quiet → t.block.lifecycle = some .quiet) ∧
      (s.block.lifecycle = some .scanning → t.block.lifecycle = some .draining) ∧
      (s.block.lifecycle = some .draining → t.block.lifecycle = some .draining) ∧
      (s.block.lifecycle = some .restarting → t.block.lifecycle = some .draining)) ∧
    ((∃ p, i = .clear p ∨ i = .readBuffer p) → t.block.lifecycle = s.block.lifecycle) ∧
    (i = .scanPoll → s.block.cancel = true → (s.params.cancelPoll = .perRow ∨ s.block.row = 0) →
      t.block.row = 0 ∧
      (s.block.lifecycle = some .draining → t.block.lifecycle = some .quiet) ∧
      (s.block.lifecycle = some .restarting → t.block.lifecycle = some .scanning)) ∧
    (i = .scanPoll → (s.block.cancel = false ∨ (s.params.cancelPoll = .perCycle ∧ s.block.row ≠ 0)) →
      t.block.lifecycle = s.block.lifecycle) ∧
    (∀ n, i = .scanWrite n → t.block.lifecycle = s.block.lifecycle)

/-- R33, R176: every step keeps the invariant. -/
def Obligations.StepKeepsInvariant : Prop :=
  ∀ s t : State, s.Inv → step s = .next t → t.Inv

/-- The power-up state meets the invariant. -/
def Obligations.ResetMeetsInvariant : Prop := State.reset.Inv

/-- R62, R105, R181, R183: every step keeps the pin history a sequence of complete row presentations in scan
order, followed by the writes done so far of the row in flight. The shape asks row 0 of an empty history: that a
power cycle keeps it rests on the model's choice of row 0 at power-up, which R240 leaves unspecified (log 10). -/
def Obligations.StepKeepsTraceShape : Prop :=
  ∀ s t : State, s.Inv → s.block.TraceOk → step s = .next t → t.block.TraceOk

/-- The power-up state's history has that shape, with the model's choice of row 0 there (log 10). -/
def Obligations.ResetMeetsTraceShape : Prop := State.reset.block.TraceOk

/-- R240: the power-up state: not constructed, Idle, no engine, no history; and by R33 (INV5) no cancel request,
no pending restart and the sequencer at a row boundary. What R240 leaves unspecified is the model's choice
(log 10, log 11) and not stated here. -/
def Obligations.ResetIsPowerUp : Prop :=
  State.reset.block.constructed = false ∧ State.reset.block.engActive = false ∧
    State.reset.block.scanState = .idle ∧ State.reset.block.trace = [] ∧
    State.reset.block.cancel = false ∧ State.reset.block.restartPending = false ∧ State.reset.block.mpc = 0

/-! ### Runs of the engine -/

/-- R104, R172: from a row boundary where no cancel request is honoured, 51 ENGINE steps are PRESENT_ROW of that
row and its byte: the same history, levels and cascade, and then the next row's boundary. -/
def Obligations.EngineRowIsPresentRow : Prop :=
  ∀ s : State, EngineAlone s → s.block.constructed = true → s.block.engActive = true → s.block.mpc = 0 →
    (s.block.cancel = false ∨ (s.params.cancelPoll = .perCycle ∧ s.block.row ≠ 0)) →
    ∃ t u, exec (.presentRow s.block.row (s.block.bufRead s.block.row)) s = .next t ∧
      runSteps 51 s = .next u ∧
      u = { t with
        block := { t.block with
          row := s.block.row + 1
          curSel := 1#8 <<< s.block.row.toNat
          curCol := s.block.bufRead s.block.row } }

/-- R183, R63: from any row boundary of an uncancelled scan, 408 ENGINE steps present the eight rows once each, in
order from the current one and wrapping, each with its byte of the buffer, and return to the same row's
boundary. -/
def Obligations.FullPassPresentsEveryRow : Prop :=
  ∀ s : State, EngineAlone s → s.block.constructed = true → s.block.engActive = true → s.block.mpc = 0 →
    s.block.cancel = false →
    ∃ t, runSteps 408 s = .next t ∧
      t.block.trace = s.block.trace ++ (List.range 8).flatMap (fun k =>
        let r : Row := s.block.row + BitVec.ofNat 3 k
        List.ofFn (seqW (1#8 <<< r.toNat) (s.block.bufRead r))) ∧
      t.block.row = s.block.row ∧ t.block.mpc = 0 ∧ t.block.buf = s.block.buf ∧
      t.block.lifecycle = s.block.lifecycle

/-- R182 (CANCEL_POLL = per_row): after a STOP at (row, mpc) of a SCANNING block, with no later command, exactly
the remaining writes of the row in flight follow, no new row begins, and the engine exits at the next boundary,
not before. -/
def Obligations.StopLatencyPerRow : Prop :=
  ∀ s : State, EngineAlone s → s.params.cancelPoll = .perRow → s.block.constructed = true →
    s.block.lifecycle = some .scanning →
    ∃ t, exec (.stop []) s = .next t ∧
      (let left := if s.block.mpc.val = 0 then 0 else 51 - s.block.mpc.val
       (∀ k ≤ left, ∃ u, runSteps k t = .next u ∧ u.block.lifecycle = some .draining) ∧
       ∃ v, runSteps (left + 1) t = .next v ∧ v.block.lifecycle = some .quiet ∧
        v.block.trace = s.block.trace ++
          (List.ofFn (seqW s.block.curSel s.block.curCol)).drop (50 - left) ∧
        v.block.buf = s.block.buf ∧ step v = .next v)

/-- R182 (CANCEL_POLL = per_cycle): after a STOP of a SCANNING block, with no later command, the engine
completes the row in flight, presents every row after it up to row 7, and exits at the boundary before row 0;
at (0, 0) it exits at once. -/
def Obligations.StopLatencyPerCycle : Prop :=
  ∀ s : State, EngineAlone s → s.params.cancelPoll = .perCycle → s.block.constructed = true →
    s.block.lifecycle = some .scanning →
    ∃ t, exec (.stop []) s = .next t ∧
      (let left := if s.block.mpc.val = 0 then 0 else 51 - s.block.mpc.val
       let firstNew :=
        if s.block.mpc.val = 0 then (if s.block.row = 0 then 8 else s.block.row.toNat) else s.block.row.toNat + 1
       ∃ v, runSteps (left + 51 * (8 - firstNew) + 1) t = .next v ∧ v.block.lifecycle = some .quiet ∧
        v.block.trace = s.block.trace ++
          (List.ofFn (seqW s.block.curSel s.block.curCol)).drop (50 - left) ++
          ((List.range 8).drop firstNew).flatMap (fun k =>
            List.ofFn (seqW (1#8 <<< k) (s.block.bufRead (BitVec.ofNat 3 k)))) ∧
        v.block.buf = s.block.buf ∧ step v = .next v)

/-- R247, R175, R177 (per_row, atomic): a SET_IMAGE_PACKED while DRAINING inside a row starts no second engine:
the old row's remaining writes follow with its captured byte, then one more step restarts the scan at row 0,
SCANNING, with the new image. -/
def Obligations.RestartWhileDraining : Prop :=
  ∀ (s : State) (words : List Word), EngineAlone s → s.params.cancelPoll = .perRow →
    s.params.bufferWriteMode = .atomic → s.block.constructed = true →
    s.block.lifecycle = some .draining → s.block.mpc ≠ 0 →
    words.length = 8 → (∀ w ∈ words, w.toNat < 256) →
    ∃ t u, exec (.setImagePacked words) s = .next t ∧ t.block.lifecycle = some .restarting ∧
      runSteps (52 - s.block.mpc.val) t = .next u ∧ u.block.lifecycle = some .scanning ∧
      u.block.row = 0 ∧ u.block.mpc = 0 ∧
      u.block.trace = s.block.trace ++
        (List.ofFn (seqW s.block.curSel s.block.curCol)).drop (s.block.mpc.val - 1) ∧
      (∀ i : Row, words[i.toNat]? = some ((u.block.bufRead i).setWidth 32))

/-! ### Infinite executions -/

/-- R184: every infinite execution of the machine is weakly fair to the ENGINE, whatever the HOST does and however
long it goes on. -/
def Obligations.EveryRunIsFair : Prop :=
  ∀ f : Nat → State, (f 0).Inv → IsRun f → FairToEngine f

/-- R184, R174, R175: in every infinite execution a cancel request is honoured or ends with the power: no request
stands for ever. -/
def Obligations.NoCancelStandsForEver : Prop :=
  ∀ f : Nat → State, (f 0).Inv → IsRun f → (f 0).block.cancel = true → ∃ k, (f k).block.cancel = false

/-- R184, R183: in every infinite execution in which the engine stays active and no cancel request comes, every row
comes to its last write again and again. -/
def Obligations.ScanRepeatsForEver : Prop :=
  ∀ f : Nat → State, (f 0).Inv → IsRun f →
    (∀ k, (f k).block.engActive = true ∧ (f k).block.cancel = false) →
    ∀ (r : Row) (n : Nat), ∃ k, n ≤ k ∧ (f k).block.row = r ∧ (f k).block.mpc = 50
end

