-- ==== Sys2Proof/Laws/Decode.lean ====
section
/-! SUPPORT. The header's fields and the decoder's inversion. -/

namespace Sys2Proof

/-- The header's bits, field by field (R71). -/
theorem encodeHeader_getLsbD (tag : BitVec 4) (p : List Word) (i : Nat) :
    (encodeHeader tag p).getLsbD i =
      if i < 4 then tag.getLsbD i
      else if i < 16 then false else (BitVec.ofNat 16 p.length).getLsbD (i - 16) := by
  show (BitVec.ofNat 16 p.length ++ 0#12 ++ tag : BitVec (16 + 12 + 4)).getLsbD i = _
  rw [BitVec.getLsbD_append, BitVec.getLsbD_append]
  by_cases h : i < 4
  · simp [h]
  · by_cases h' : i < 16
    · simp [h, h', show i - 4 < 12 by omega]
    · simp only [h, h', show ¬ i - 4 < 12 by omega, if_false]
      congr 1

@[simp] theorem headerTag_encodeHeader (tag : BitVec 4) (p : List Word) : headerTag (encodeHeader tag p) = tag := by
  apply BitVec.eq_of_getLsbD_eq
  intro i hi
  simp [headerTag, encodeHeader_getLsbD, hi]

@[simp] theorem headerRsvd_encodeHeader (tag : BitVec 4) (p : List Word) : headerRsvd (encodeHeader tag p) = 0#12 := by
  apply BitVec.eq_of_getLsbD_eq
  intro i hi
  simp [headerRsvd, encodeHeader_getLsbD, show ¬ 4 + i < 4 by omega, show 4 + i < 16 by omega]

@[simp] theorem headerLen_encodeHeader (tag : BitVec 4) (p : List Word) :
    headerLen (encodeHeader tag p) = BitVec.ofNat 16 p.length := by
  apply BitVec.eq_of_getLsbD_eq
  intro i hi
  simp [headerLen, encodeHeader_getLsbD, hi, show ¬ 16 + i < 4 by omega, show ¬ 16 + i < 16 by omega]

/-- A header is its three fields (R71). -/
theorem header_eq_fields (h : Word) :
    (headerLen h ++ headerRsvd h ++ headerTag h : BitVec 32) = h := by
  unfold headerLen headerRsvd headerTag
  ext i hi
  simp only [BitVec.getElem_append, BitVec.getElem_extractLsb']
  split
  · simp [BitVec.getLsbD_eq_getElem hi]
  · split
    · rw [show 4 + (i - 4) = i by omega, BitVec.getLsbD_eq_getElem hi]
    · rw [show 16 + (i - 4 - 12) = i by omega, BitVec.getLsbD_eq_getElem hi]

theorem headerTag_toNat (h : Word) : (headerTag h).toNat = h.toNat % 16 := by
  simp [headerTag, BitVec.extractLsb'_toNat]

theorem headerRsvd_toNat (h : Word) : (headerRsvd h).toNat = h.toNat / 16 % 4096 := by
  simp [headerRsvd, BitVec.extractLsb'_toNat, Nat.shiftRight_eq_div_pow]

theorem headerLen_toNat (h : Word) : (headerLen h).toNat = h.toNat / 65536 := by
  have := h.isLt
  simp only [headerLen, BitVec.extractLsb'_toNat, Nat.shiftRight_eq_div_pow]
  omega

/-- What an accepted delivery is: its count agrees, its reserved bits are 0, its tag is in the table. -/
theorem decodeCommand_ok {words : List Word} {i : Instr} (h : decodeCommand words = .ok i) :
    ∃ hd payload, words = hd :: payload ∧ payload.length = (headerLen hd).toNat ∧ headerRsvd hd = 0#12 ∧
      commandOfTag (headerTag hd) payload = some i := by
  cases words with
  | nil => simp [decodeCommand] at h
  | cons hd payload =>
    simp only [decodeCommand] at h
    split at h
    · next hl =>
      split at h
      · cases h
      · next i' hc =>
        split at h
        · next hr => cases h; exact ⟨hd, payload, rfl, hl, hr, hc⟩
        · cases h
    · cases h

/-- A delivery with a reserved tag or reserved bits is one of the two rejections (R83). -/
theorem decodeCommand_reserved {hd : Word} {payload : List Word} (hl : payload.length = hd.toNat / 65536)
    (h : 6 ≤ hd.toNat % 16 ∨ hd.toNat / 16 % 4096 ≠ 0) :
    decodeCommand (hd :: payload) = .error .reservedTag ∨ decodeCommand (hd :: payload) = .error .reservedBits := by
  simp only [decodeCommand, headerLen_toNat, hl, if_true]
  cases hc : commandOfTag (headerTag hd) payload with
  | none => exact .inl rfl
  | some i =>
    right
    suffices hr : headerRsvd hd ≠ 0#12 by simp [hr]
    intro hr
    have hr' : hd.toNat / 16 % 4096 = 0 := by rw [← headerRsvd_toNat, hr]; rfl
    have ht : 6 ≤ (headerTag hd).toNat := by rw [headerTag_toNat]; omega
    unfold commandOfTag at hc
    split at hc <;> first | omega | cases hc

/-- A delivery whose count is wrong is a transport error (R72). -/
theorem decodeCommand_transport {words : List Word}
    (h : words = [] ∨ ∃ hd payload, words = hd :: payload ∧ payload.length ≠ hd.toNat / 65536) :
    decodeCommand words = .error .transport := by
  obtain rfl | ⟨hd, payload, rfl, hl⟩ := h
  · rfl
  · simp [decodeCommand, headerLen_toNat, hl]

/-- A command word is never read as a micro-operation, nor the other way (R80). -/
theorem commandOfTag_eq_some {tag : BitVec 4} {p : List Word} {i : Instr} (h : commandOfTag tag p = some i) :
    (tag = 0 ∧ i = .construct p) ∨ (tag = 1 ∧ i = .setImageFlat p) ∨ (tag = 2 ∧ i = .setImagePacked p) ∨
      (tag = 3 ∧ i = .clear p) ∨ (tag = 4 ∧ i = .stop p) ∨ (tag = 5 ∧ i = .readBuffer p) := by
  have key : ∀ n : Nat, tag.toNat = n → n < 16 → tag = BitVec.ofNat 4 n := fun n hn hlt =>
    BitVec.eq_of_toNat_eq (by simp [hn, Nat.mod_eq_of_lt hlt])
  unfold commandOfTag at h
  split at h <;> simp_all

end Sys2Proof
end

