-- ==== Sys2Proof/Laws/Operands.lean ====
section
/-! SUPPORT. What the operand operations compute: cells, packed rows, the selector, and the write sequence of a
row against seqW. -/

namespace Sys2Proof.Machine

theorem isOn_iff (w : Word) : isOn w = true ↔ w = 1 := by simp [isOn]

/-- Eight terms, each 1 or 0 in its own place, add up to the byte with those bits (R78). -/
theorem sum_of_places (f : Fin 8 → Bool) (j : Fin 8) :
    (((if f 0 then 1#8 else 0#8) <<< 0 + (if f 1 then 1#8 else 0#8) <<< 1 + (if f 2 then 1#8 else 0#8) <<< 2 +
      (if f 3 then 1#8 else 0#8) <<< 3 + (if f 4 then 1#8 else 0#8) <<< 4 + (if f 5 then 1#8 else 0#8) <<< 5 +
      (if f 6 then 1#8 else 0#8) <<< 6 + (if f 7 then 1#8 else 0#8) <<< 7) : Byte).getLsbD j.val = f j := by
  have key : ∀ (a b c d e g h k : Bool) (j : Fin 8),
      (((if a then 1#8 else 0#8) <<< 0 + (if b then 1#8 else 0#8) <<< 1 + (if c then 1#8 else 0#8) <<< 2 +
        (if d then 1#8 else 0#8) <<< 3 + (if e then 1#8 else 0#8) <<< 4 + (if g then 1#8 else 0#8) <<< 5 +
        (if h then 1#8 else 0#8) <<< 6 + (if k then 1#8 else 0#8) <<< 7) : Byte).getLsbD j.val =
        [a, b, c, d, e, g, h, k].getD j.val false := by decide
  rw [key]
  fin_cases j <;> rfl

/-- Bit j of a packed row is the on-ness of its cell (R78). -/
theorem packRow_bit (cells : List Word) (i : Nat) (j : Fin 8) :
    (packRow cells i).getLsbD j.val = isOn (cells.getD (i * 8 + j.val) 0#32) :=
  sum_of_places (fun j => isOn (cells.getD (i * 8 + j.val) 0#32)) j

@[simp] theorem packFlat_row (cells : List Word) (i : Nat) (h : i < 8) :
    (packFlat cells)[i] = packRow cells i := by
  simp [packFlat]

@[simp] theorem packedRows_row (words : List Word) (i : Nat) (h : i < 8) :
    (packedRows words)[i] = (words.getD i 0#32).extractLsb' 0 8 := by
  simp [packedRows]

@[simp] theorem fillRows_row (w : Word) (i : Nat) (h : i < 8) : (fillRows w)[i] = fillByte w := by
  simp [fillRows]

theorem fillByte_eq (w : Word) : fillByte w = if w = 1 then 0xFF else 0x00 := by
  simp [fillByte, isOn]

/-- A word has bits [31:8] all 0 iff it is a byte (R133). -/
theorem highBits_zero_iff (w : Word) : w.extractLsb' 8 24 = 0#24 ↔ w.toNat < 256 := by
  rw [← BitVec.toNat_inj]
  simp only [BitVec.extractLsb'_toNat, BitVec.toNat_ofNat, Nat.shiftRight_eq_div_pow]
  have := w.isLt
  omega

theorem packedHighBits_eq_false_iff (words : List Word) :
    packedHighBits words = false ↔ ∀ w ∈ words, w.toNat < 256 := by
  simp [packedHighBits, List.any_eq_false, highBits_zero_iff]

/-- The selector has only bit r set (R78). -/
theorem selector_toNat (r : Row) : (selector r).toNat = 2 ^ r.toNat := by
  revert r; decide

theorem selector_bit (r : Row) (j : Nat) (h : j < 8) : (selector r).getLsbD j = decide (j = r.toNat) := by
  have key : ∀ (r : Row) (j : Fin 8), (selector r).getLsbD j.val = decide (j.val = r.toNat) := by decide
  exact key r ⟨j, h⟩

/-- A byte is the one-hot selector of r iff its value is 2 to the r. -/
theorem eq_selector_of_toNat {b : Byte} {r : Row} (h : b.toNat = 2 ^ r.toNat) : b = selector r :=
  BitVec.eq_of_toNat_eq (h.trans (selector_toNat r).symm)

/-- The writes of a row are seqW's, in order (R81, R104). -/
theorem rowWrites_eq_ofFn (s c : Byte) : rowWrites s c = List.ofFn (seqW s c) := by
  simp [List.ofFn_succ, seqW, rowWrites, byteWrites, latchWrites, pulse]

@[simp] theorem byteWrites_length (b : Byte) : (byteWrites b).length = 24 := rfl

@[simp] theorem rowWrites_length (s c : Byte) : (rowWrites s c).length = 50 := rfl

theorem rowWrites_getElem? (s c : Byte) (n : Fin 50) : (rowWrites s c)[n.val]? = some (seqW s c n) := by
  rw [rowWrites_eq_ofFn, List.getElem?_ofFn]
  simp

/-- The first n + 1 writes are the first n and write n. -/
theorem rowWrites_take_succ (s c : Byte) (n : Fin 50) :
    (rowWrites s c).take (n.val + 1) = (rowWrites s c).take n.val ++ [seqW s c n] := by
  rw [List.take_add_one, rowWrites_getElem?]
  rfl

/-- The writes from n on are write n and those after it. -/
theorem rowWrites_drop (s c : Byte) (n : Fin 50) :
    (rowWrites s c).drop n.val = seqW s c n :: (rowWrites s c).drop (n.val + 1) := by
  obtain ⟨h, he⟩ := List.getElem?_eq_some_iff.1 (rowWrites_getElem? s c n)
  rw [List.drop_eq_getElem_cons h, he]

end Sys2Proof.Machine
end

