-- ==== Sys2Proof/Laws/State.lean ====
section
/-! SUPPORT. One lemma per field per update of the state, true by `rfl`, so that no later proof unfolds a
record update. -/

namespace Sys2Proof.Machine

/-! ### `State.respond` -/

@[simp] theorem State.respond_block (s : State) (st : Status) (data : List Word) : (s.respond st data).block = s.block := rfl
@[simp] theorem State.respond_cascade (s : State) (st : Status) (data : List Word) : (s.respond st data).cascade = s.cascade := rfl
@[simp] theorem State.respond_params (s : State) (st : Status) (data : List Word) : (s.respond st data).params = s.params := rfl
@[simp] theorem State.respond_inputs (s : State) (st : Status) (data : List Word) : (s.respond st data).inputs = s.inputs := rfl
@[simp] theorem State.respond_endless (s : State) (st : Status) (data : List Word) : (s.respond st data).endless = s.endless := rfl
@[simp] theorem State.respond_busy (s : State) (st : Status) (data : List Word) : (s.respond st data).busy = s.busy := rfl
@[simp] theorem State.respond_outputs (s : State) (st : Status) (data : List Word) : (s.respond st data).outputs = s.outputs ++ [statusWord st :: data] := rfl
@[simp] theorem State.respond_turns (s : State) (st : Status) (data : List Word) : (s.respond st data).turns = s.turns := rfl
@[simp] theorem State.respond_engineWait (s : State) (st : Status) (data : List Word) : (s.respond st data).engineWait = s.engineWait := rfl
@[simp] theorem State.respond_picks (s : State) (st : Status) (data : List Word) : (s.respond st data).picks = s.picks := rfl
@[simp] theorem State.respond_drawn (s : State) (st : Status) (data : List Word) : (s.respond st data).drawn = s.drawn := rfl
@[simp] theorem State.respond_uop (s : State) (st : Status) (data : List Word) : (s.respond st data).uop = s.uop := rfl

/-! ### `State.raise` -/

@[simp] theorem State.raise_block (s : State) (e : CommandError) : (s.raise e).block = s.block := rfl
@[simp] theorem State.raise_cascade (s : State) (e : CommandError) : (s.raise e).cascade = s.cascade := rfl
@[simp] theorem State.raise_params (s : State) (e : CommandError) : (s.raise e).params = s.params := rfl
@[simp] theorem State.raise_inputs (s : State) (e : CommandError) : (s.raise e).inputs = s.inputs := rfl
@[simp] theorem State.raise_endless (s : State) (e : CommandError) : (s.raise e).endless = s.endless := rfl
@[simp] theorem State.raise_busy (s : State) (e : CommandError) : (s.raise e).busy = s.busy := rfl
@[simp] theorem State.raise_outputs (s : State) (e : CommandError) : (s.raise e).outputs = s.outputs ++ [[statusWord e.status]] := rfl
@[simp] theorem State.raise_turns (s : State) (e : CommandError) : (s.raise e).turns = s.turns := rfl
@[simp] theorem State.raise_engineWait (s : State) (e : CommandError) : (s.raise e).engineWait = s.engineWait := rfl
@[simp] theorem State.raise_picks (s : State) (e : CommandError) : (s.raise e).picks = s.picks := rfl
@[simp] theorem State.raise_drawn (s : State) (e : CommandError) : (s.raise e).drawn = s.drawn := rfl
@[simp] theorem State.raise_uop (s : State) (e : CommandError) : (s.raise e).uop = s.uop := rfl

/-! ### `State.pinWrite` -/

@[simp] theorem State.pinWrite_block (s : State) (p : Pin) (v : Level) : (s.pinWrite p v).block = s.block.drive p v := rfl
@[simp] theorem State.pinWrite_cascade (s : State) (p : Pin) (v : Level) : (s.pinWrite p v).cascade = s.cascade.observe s.block p v := rfl
@[simp] theorem State.pinWrite_params (s : State) (p : Pin) (v : Level) : (s.pinWrite p v).params = s.params := rfl
@[simp] theorem State.pinWrite_inputs (s : State) (p : Pin) (v : Level) : (s.pinWrite p v).inputs = s.inputs := rfl
@[simp] theorem State.pinWrite_endless (s : State) (p : Pin) (v : Level) : (s.pinWrite p v).endless = s.endless := rfl
@[simp] theorem State.pinWrite_busy (s : State) (p : Pin) (v : Level) : (s.pinWrite p v).busy = s.busy := rfl
@[simp] theorem State.pinWrite_outputs (s : State) (p : Pin) (v : Level) : (s.pinWrite p v).outputs = s.outputs := rfl
@[simp] theorem State.pinWrite_turns (s : State) (p : Pin) (v : Level) : (s.pinWrite p v).turns = s.turns := rfl
@[simp] theorem State.pinWrite_engineWait (s : State) (p : Pin) (v : Level) : (s.pinWrite p v).engineWait = s.engineWait := rfl
@[simp] theorem State.pinWrite_picks (s : State) (p : Pin) (v : Level) : (s.pinWrite p v).picks = s.picks := rfl
@[simp] theorem State.pinWrite_drawn (s : State) (p : Pin) (v : Level) : (s.pinWrite p v).drawn = s.drawn := rfl
@[simp] theorem State.pinWrite_uop (s : State) (p : Pin) (v : Level) : (s.pinWrite p v).uop = s.uop := rfl

/-! ### `State.powerCycle` -/

@[simp] theorem State.powerCycle_block (s : State) : (s.powerCycle).block = Block.powerUp := rfl
@[simp] theorem State.powerCycle_cascade (s : State) : (s.powerCycle).cascade = Cascade.powerUp := rfl
@[simp] theorem State.powerCycle_params (s : State) : (s.powerCycle).params = s.params := rfl
@[simp] theorem State.powerCycle_inputs (s : State) : (s.powerCycle).inputs = s.inputs := rfl
@[simp] theorem State.powerCycle_endless (s : State) : (s.powerCycle).endless = s.endless := rfl
@[simp] theorem State.powerCycle_busy (s : State) : (s.powerCycle).busy = none := rfl
@[simp] theorem State.powerCycle_outputs (s : State) : (s.powerCycle).outputs = s.outputs := rfl
@[simp] theorem State.powerCycle_turns (s : State) : (s.powerCycle).turns = s.turns := rfl
@[simp] theorem State.powerCycle_engineWait (s : State) : (s.powerCycle).engineWait = none := rfl
@[simp] theorem State.powerCycle_picks (s : State) : (s.powerCycle).picks = s.picks := rfl
@[simp] theorem State.powerCycle_drawn (s : State) : (s.powerCycle).drawn = s.drawn := rfl
@[simp] theorem State.powerCycle_uop (s : State) : (s.powerCycle).uop = none := rfl

/-! ### `State.finishReplacement` -/

@[simp] theorem State.finishReplacement_block (s : State) (b : Bool) : (s.finishReplacement b).block = (if b then s.block.startScanIfIdle else s.block) := rfl
@[simp] theorem State.finishReplacement_cascade (s : State) (b : Bool) : (s.finishReplacement b).cascade = s.cascade := rfl
@[simp] theorem State.finishReplacement_params (s : State) (b : Bool) : (s.finishReplacement b).params = s.params := rfl
@[simp] theorem State.finishReplacement_inputs (s : State) (b : Bool) : (s.finishReplacement b).inputs = s.inputs := rfl
@[simp] theorem State.finishReplacement_endless (s : State) (b : Bool) : (s.finishReplacement b).endless = s.endless := rfl
@[simp] theorem State.finishReplacement_busy (s : State) (b : Bool) : (s.finishReplacement b).busy = none := rfl
@[simp] theorem State.finishReplacement_outputs (s : State) (b : Bool) : (s.finishReplacement b).outputs = s.outputs ++ [[statusWord .ok]] := rfl
@[simp] theorem State.finishReplacement_turns (s : State) (b : Bool) : (s.finishReplacement b).turns = s.turns := rfl
@[simp] theorem State.finishReplacement_engineWait (s : State) (b : Bool) : (s.finishReplacement b).engineWait = s.engineWait := rfl
@[simp] theorem State.finishReplacement_picks (s : State) (b : Bool) : (s.finishReplacement b).picks = s.picks := rfl
@[simp] theorem State.finishReplacement_drawn (s : State) (b : Bool) : (s.finishReplacement b).drawn = s.drawn := rfl
@[simp] theorem State.finishReplacement_uop (s : State) (b : Bool) : (s.finishReplacement b).uop = s.uop := rfl

/-! ### `Block.startRow` -/

@[simp] theorem Block.startRow_constructed (s : Block) : (s.startRow).constructed = s.constructed := rfl
@[simp] theorem Block.startRow_pinIdDs (s : Block) : (s.startRow).pinIdDs = s.pinIdDs := rfl
@[simp] theorem Block.startRow_pinIdStcp (s : Block) : (s.startRow).pinIdStcp = s.pinIdStcp := rfl
@[simp] theorem Block.startRow_pinIdShcp (s : Block) : (s.startRow).pinIdShcp = s.pinIdShcp := rfl
@[simp] theorem Block.startRow_lvlDs (s : Block) : (s.startRow).lvlDs = s.lvlDs := rfl
@[simp] theorem Block.startRow_lvlShcp (s : Block) : (s.startRow).lvlShcp = s.lvlShcp := rfl
@[simp] theorem Block.startRow_lvlStcp (s : Block) : (s.startRow).lvlStcp = s.lvlStcp := rfl
@[simp] theorem Block.startRow_buf (s : Block) : (s.startRow).buf = s.buf := rfl
@[simp] theorem Block.startRow_scanState (s : Block) : (s.startRow).scanState = s.scanState := rfl
@[simp] theorem Block.startRow_cancel (s : Block) : (s.startRow).cancel = s.cancel := rfl
@[simp] theorem Block.startRow_restartPending (s : Block) : (s.startRow).restartPending = s.restartPending := rfl
@[simp] theorem Block.startRow_engActive (s : Block) : (s.startRow).engActive = s.engActive := rfl
@[simp] theorem Block.startRow_row (s : Block) : (s.startRow).row = s.row := rfl
@[simp] theorem Block.startRow_mpc (s : Block) : (s.startRow).mpc = 1 := rfl
@[simp] theorem Block.startRow_curSel (s : Block) : (s.startRow).curSel = selector s.row := rfl
@[simp] theorem Block.startRow_curCol (s : Block) : (s.startRow).curCol = s.bufRead s.row := rfl
@[simp] theorem Block.startRow_trace (s : Block) : (s.startRow).trace = s.trace := rfl

/-! ### `Block.bufWriteRow` -/

@[simp] theorem Block.bufWriteRow_constructed (s : Block) (r : Row) (v : Byte) : (s.bufWriteRow r v).constructed = s.constructed := rfl
@[simp] theorem Block.bufWriteRow_pinIdDs (s : Block) (r : Row) (v : Byte) : (s.bufWriteRow r v).pinIdDs = s.pinIdDs := rfl
@[simp] theorem Block.bufWriteRow_pinIdStcp (s : Block) (r : Row) (v : Byte) : (s.bufWriteRow r v).pinIdStcp = s.pinIdStcp := rfl
@[simp] theorem Block.bufWriteRow_pinIdShcp (s : Block) (r : Row) (v : Byte) : (s.bufWriteRow r v).pinIdShcp = s.pinIdShcp := rfl
@[simp] theorem Block.bufWriteRow_lvlDs (s : Block) (r : Row) (v : Byte) : (s.bufWriteRow r v).lvlDs = s.lvlDs := rfl
@[simp] theorem Block.bufWriteRow_lvlShcp (s : Block) (r : Row) (v : Byte) : (s.bufWriteRow r v).lvlShcp = s.lvlShcp := rfl
@[simp] theorem Block.bufWriteRow_lvlStcp (s : Block) (r : Row) (v : Byte) : (s.bufWriteRow r v).lvlStcp = s.lvlStcp := rfl
@[simp] theorem Block.bufWriteRow_buf (s : Block) (r : Row) (v : Byte) : (s.bufWriteRow r v).buf = s.buf.set r.toNat v r.isLt := rfl
@[simp] theorem Block.bufWriteRow_scanState (s : Block) (r : Row) (v : Byte) : (s.bufWriteRow r v).scanState = s.scanState := rfl
@[simp] theorem Block.bufWriteRow_cancel (s : Block) (r : Row) (v : Byte) : (s.bufWriteRow r v).cancel = s.cancel := rfl
@[simp] theorem Block.bufWriteRow_restartPending (s : Block) (r : Row) (v : Byte) : (s.bufWriteRow r v).restartPending = s.restartPending := rfl
@[simp] theorem Block.bufWriteRow_engActive (s : Block) (r : Row) (v : Byte) : (s.bufWriteRow r v).engActive = s.engActive := rfl
@[simp] theorem Block.bufWriteRow_row (s : Block) (r : Row) (v : Byte) : (s.bufWriteRow r v).row = s.row := rfl
@[simp] theorem Block.bufWriteRow_mpc (s : Block) (r : Row) (v : Byte) : (s.bufWriteRow r v).mpc = s.mpc := rfl
@[simp] theorem Block.bufWriteRow_curSel (s : Block) (r : Row) (v : Byte) : (s.bufWriteRow r v).curSel = s.curSel := rfl
@[simp] theorem Block.bufWriteRow_curCol (s : Block) (r : Row) (v : Byte) : (s.bufWriteRow r v).curCol = s.curCol := rfl
@[simp] theorem Block.bufWriteRow_trace (s : Block) (r : Row) (v : Byte) : (s.bufWriteRow r v).trace = s.trace := rfl

/-! ### Updates that branch -/

@[simp] theorem Block.setLevel_constructed (s : Block) (p : Pin) (v : Level) : (s.setLevel p v).constructed = s.constructed := by
  cases p <;> rfl
@[simp] theorem Block.setLevel_pinIdDs (s : Block) (p : Pin) (v : Level) : (s.setLevel p v).pinIdDs = s.pinIdDs := by
  cases p <;> rfl
@[simp] theorem Block.setLevel_pinIdStcp (s : Block) (p : Pin) (v : Level) : (s.setLevel p v).pinIdStcp = s.pinIdStcp := by
  cases p <;> rfl
@[simp] theorem Block.setLevel_pinIdShcp (s : Block) (p : Pin) (v : Level) : (s.setLevel p v).pinIdShcp = s.pinIdShcp := by
  cases p <;> rfl
@[simp] theorem Block.setLevel_buf (s : Block) (p : Pin) (v : Level) : (s.setLevel p v).buf = s.buf := by
  cases p <;> rfl
@[simp] theorem Block.setLevel_scanState (s : Block) (p : Pin) (v : Level) : (s.setLevel p v).scanState = s.scanState := by
  cases p <;> rfl
@[simp] theorem Block.setLevel_cancel (s : Block) (p : Pin) (v : Level) : (s.setLevel p v).cancel = s.cancel := by
  cases p <;> rfl
@[simp] theorem Block.setLevel_restartPending (s : Block) (p : Pin) (v : Level) : (s.setLevel p v).restartPending = s.restartPending := by
  cases p <;> rfl
@[simp] theorem Block.setLevel_engActive (s : Block) (p : Pin) (v : Level) : (s.setLevel p v).engActive = s.engActive := by
  cases p <;> rfl
@[simp] theorem Block.setLevel_row (s : Block) (p : Pin) (v : Level) : (s.setLevel p v).row = s.row := by
  cases p <;> rfl
@[simp] theorem Block.setLevel_mpc (s : Block) (p : Pin) (v : Level) : (s.setLevel p v).mpc = s.mpc := by
  cases p <;> rfl
@[simp] theorem Block.setLevel_curSel (s : Block) (p : Pin) (v : Level) : (s.setLevel p v).curSel = s.curSel := by
  cases p <;> rfl
@[simp] theorem Block.setLevel_curCol (s : Block) (p : Pin) (v : Level) : (s.setLevel p v).curCol = s.curCol := by
  cases p <;> rfl
@[simp] theorem Block.setLevel_trace (s : Block) (p : Pin) (v : Level) : (s.setLevel p v).trace = s.trace := by
  cases p <;> rfl

@[simp] theorem Block.drive_constructed (s : Block) (p : Pin) (v : Level) : (s.drive p v).constructed = s.constructed := by
  cases p <;> rfl
@[simp] theorem Block.drive_pinIdDs (s : Block) (p : Pin) (v : Level) : (s.drive p v).pinIdDs = s.pinIdDs := by
  cases p <;> rfl
@[simp] theorem Block.drive_pinIdStcp (s : Block) (p : Pin) (v : Level) : (s.drive p v).pinIdStcp = s.pinIdStcp := by
  cases p <;> rfl
@[simp] theorem Block.drive_pinIdShcp (s : Block) (p : Pin) (v : Level) : (s.drive p v).pinIdShcp = s.pinIdShcp := by
  cases p <;> rfl
@[simp] theorem Block.drive_buf (s : Block) (p : Pin) (v : Level) : (s.drive p v).buf = s.buf := by
  cases p <;> rfl
@[simp] theorem Block.drive_scanState (s : Block) (p : Pin) (v : Level) : (s.drive p v).scanState = s.scanState := by
  cases p <;> rfl
@[simp] theorem Block.drive_cancel (s : Block) (p : Pin) (v : Level) : (s.drive p v).cancel = s.cancel := by
  cases p <;> rfl
@[simp] theorem Block.drive_restartPending (s : Block) (p : Pin) (v : Level) : (s.drive p v).restartPending = s.restartPending := by
  cases p <;> rfl
@[simp] theorem Block.drive_engActive (s : Block) (p : Pin) (v : Level) : (s.drive p v).engActive = s.engActive := by
  cases p <;> rfl
@[simp] theorem Block.drive_row (s : Block) (p : Pin) (v : Level) : (s.drive p v).row = s.row := by
  cases p <;> rfl
@[simp] theorem Block.drive_mpc (s : Block) (p : Pin) (v : Level) : (s.drive p v).mpc = s.mpc := by
  cases p <;> rfl
@[simp] theorem Block.drive_curSel (s : Block) (p : Pin) (v : Level) : (s.drive p v).curSel = s.curSel := by
  cases p <;> rfl
@[simp] theorem Block.drive_curCol (s : Block) (p : Pin) (v : Level) : (s.drive p v).curCol = s.curCol := by
  cases p <;> rfl

@[simp] theorem Block.drive_trace (s : Block) (p : Pin) (v : Level) : (s.drive p v).trace = s.trace ++ [(p, v)] := rfl

@[simp] theorem Block.drive_ds_lvlDs (s : Block) (v : Level) : (s.drive .ds v).lvlDs = v := rfl
@[simp] theorem Block.drive_shcp_lvlDs (s : Block) (v : Level) : (s.drive .shcp v).lvlDs = s.lvlDs := rfl
@[simp] theorem Block.drive_stcp_lvlDs (s : Block) (v : Level) : (s.drive .stcp v).lvlDs = s.lvlDs := rfl
@[simp] theorem Block.drive_ds_lvlShcp (s : Block) (v : Level) : (s.drive .ds v).lvlShcp = s.lvlShcp := rfl
@[simp] theorem Block.drive_shcp_lvlShcp (s : Block) (v : Level) : (s.drive .shcp v).lvlShcp = v := rfl
@[simp] theorem Block.drive_stcp_lvlShcp (s : Block) (v : Level) : (s.drive .stcp v).lvlShcp = s.lvlShcp := rfl
@[simp] theorem Block.drive_ds_lvlStcp (s : Block) (v : Level) : (s.drive .ds v).lvlStcp = s.lvlStcp := rfl
@[simp] theorem Block.drive_shcp_lvlStcp (s : Block) (v : Level) : (s.drive .shcp v).lvlStcp = s.lvlStcp := rfl
@[simp] theorem Block.drive_stcp_lvlStcp (s : Block) (v : Level) : (s.drive .stcp v).lvlStcp = v := rfl

@[simp] theorem Block.startScanIfIdle_constructed (s : Block) : (s.startScanIfIdle).constructed = s.constructed := by
  unfold Block.startScanIfIdle; repeat' split
  all_goals rfl
@[simp] theorem Block.startScanIfIdle_pinIdDs (s : Block) : (s.startScanIfIdle).pinIdDs = s.pinIdDs := by
  unfold Block.startScanIfIdle; repeat' split
  all_goals rfl
@[simp] theorem Block.startScanIfIdle_pinIdStcp (s : Block) : (s.startScanIfIdle).pinIdStcp = s.pinIdStcp := by
  unfold Block.startScanIfIdle; repeat' split
  all_goals rfl
@[simp] theorem Block.startScanIfIdle_pinIdShcp (s : Block) : (s.startScanIfIdle).pinIdShcp = s.pinIdShcp := by
  unfold Block.startScanIfIdle; repeat' split
  all_goals rfl
@[simp] theorem Block.startScanIfIdle_lvlDs (s : Block) : (s.startScanIfIdle).lvlDs = s.lvlDs := by
  unfold Block.startScanIfIdle; repeat' split
  all_goals rfl
@[simp] theorem Block.startScanIfIdle_lvlShcp (s : Block) : (s.startScanIfIdle).lvlShcp = s.lvlShcp := by
  unfold Block.startScanIfIdle; repeat' split
  all_goals rfl
@[simp] theorem Block.startScanIfIdle_lvlStcp (s : Block) : (s.startScanIfIdle).lvlStcp = s.lvlStcp := by
  unfold Block.startScanIfIdle; repeat' split
  all_goals rfl
@[simp] theorem Block.startScanIfIdle_buf (s : Block) : (s.startScanIfIdle).buf = s.buf := by
  unfold Block.startScanIfIdle; repeat' split
  all_goals rfl
@[simp] theorem Block.startScanIfIdle_curSel (s : Block) : (s.startScanIfIdle).curSel = s.curSel := by
  unfold Block.startScanIfIdle; repeat' split
  all_goals rfl
@[simp] theorem Block.startScanIfIdle_curCol (s : Block) : (s.startScanIfIdle).curCol = s.curCol := by
  unfold Block.startScanIfIdle; repeat' split
  all_goals rfl
@[simp] theorem Block.startScanIfIdle_trace (s : Block) : (s.startScanIfIdle).trace = s.trace := by
  unfold Block.startScanIfIdle; repeat' split
  all_goals rfl

@[simp] theorem Block.stopScan_constructed (s : Block) : (s.stopScan).constructed = s.constructed := by
  unfold Block.stopScan; split <;> rfl
@[simp] theorem Block.stopScan_pinIdDs (s : Block) : (s.stopScan).pinIdDs = s.pinIdDs := by
  unfold Block.stopScan; split <;> rfl
@[simp] theorem Block.stopScan_pinIdStcp (s : Block) : (s.stopScan).pinIdStcp = s.pinIdStcp := by
  unfold Block.stopScan; split <;> rfl
@[simp] theorem Block.stopScan_pinIdShcp (s : Block) : (s.stopScan).pinIdShcp = s.pinIdShcp := by
  unfold Block.stopScan; split <;> rfl
@[simp] theorem Block.stopScan_lvlDs (s : Block) : (s.stopScan).lvlDs = s.lvlDs := by
  unfold Block.stopScan; split <;> rfl
@[simp] theorem Block.stopScan_lvlShcp (s : Block) : (s.stopScan).lvlShcp = s.lvlShcp := by
  unfold Block.stopScan; split <;> rfl
@[simp] theorem Block.stopScan_lvlStcp (s : Block) : (s.stopScan).lvlStcp = s.lvlStcp := by
  unfold Block.stopScan; split <;> rfl
@[simp] theorem Block.stopScan_buf (s : Block) : (s.stopScan).buf = s.buf := by
  unfold Block.stopScan; split <;> rfl
@[simp] theorem Block.stopScan_curSel (s : Block) : (s.stopScan).curSel = s.curSel := by
  unfold Block.stopScan; split <;> rfl
@[simp] theorem Block.stopScan_curCol (s : Block) : (s.stopScan).curCol = s.curCol := by
  unfold Block.stopScan; split <;> rfl
@[simp] theorem Block.stopScan_trace (s : Block) : (s.stopScan).trace = s.trace := by
  unfold Block.stopScan; split <;> rfl
@[simp] theorem Block.stopScan_row (s : Block) : (s.stopScan).row = s.row := by
  unfold Block.stopScan; split <;> rfl
@[simp] theorem Block.stopScan_mpc (s : Block) : (s.stopScan).mpc = s.mpc := by
  unfold Block.stopScan; split <;> rfl
@[simp] theorem Block.stopScan_engActive (s : Block) : (s.stopScan).engActive = s.engActive := by
  unfold Block.stopScan; split <;> rfl

@[simp] theorem Block.onCancel_constructed (s : Block) : (s.onCancel).constructed = s.constructed := by
  unfold Block.onCancel; split <;> rfl
@[simp] theorem Block.onCancel_pinIdDs (s : Block) : (s.onCancel).pinIdDs = s.pinIdDs := by
  unfold Block.onCancel; split <;> rfl
@[simp] theorem Block.onCancel_pinIdStcp (s : Block) : (s.onCancel).pinIdStcp = s.pinIdStcp := by
  unfold Block.onCancel; split <;> rfl
@[simp] theorem Block.onCancel_pinIdShcp (s : Block) : (s.onCancel).pinIdShcp = s.pinIdShcp := by
  unfold Block.onCancel; split <;> rfl
@[simp] theorem Block.onCancel_lvlDs (s : Block) : (s.onCancel).lvlDs = s.lvlDs := by
  unfold Block.onCancel; split <;> rfl
@[simp] theorem Block.onCancel_lvlShcp (s : Block) : (s.onCancel).lvlShcp = s.lvlShcp := by
  unfold Block.onCancel; split <;> rfl
@[simp] theorem Block.onCancel_lvlStcp (s : Block) : (s.onCancel).lvlStcp = s.lvlStcp := by
  unfold Block.onCancel; split <;> rfl
@[simp] theorem Block.onCancel_buf (s : Block) : (s.onCancel).buf = s.buf := by
  unfold Block.onCancel; split <;> rfl
@[simp] theorem Block.onCancel_curSel (s : Block) : (s.onCancel).curSel = s.curSel := by
  unfold Block.onCancel; split <;> rfl
@[simp] theorem Block.onCancel_curCol (s : Block) : (s.onCancel).curCol = s.curCol := by
  unfold Block.onCancel; split <;> rfl
@[simp] theorem Block.onCancel_trace (s : Block) : (s.onCancel).trace = s.trace := by
  unfold Block.onCancel; split <;> rfl
@[simp] theorem Block.onCancel_mpc (s : Block) : (s.onCancel).mpc = s.mpc := by
  unfold Block.onCancel; split <;> rfl
@[simp] theorem Block.onCancel_scanState (s : Block) : (s.onCancel).scanState = s.scanState := by
  unfold Block.onCancel; split <;> rfl

@[simp] theorem Block.onCancel_row (s : Block) : s.onCancel.row = 0 := by
  unfold Block.onCancel; split <;> rfl
@[simp] theorem Block.onCancel_cancel (s : Block) : s.onCancel.cancel = false := by
  unfold Block.onCancel; split <;> rfl

@[simp] theorem Block.advance_constructed (s : Block) : (s.advance).constructed = s.constructed := by
  unfold Block.advance; split <;> rfl
@[simp] theorem Block.advance_pinIdDs (s : Block) : (s.advance).pinIdDs = s.pinIdDs := by
  unfold Block.advance; split <;> rfl
@[simp] theorem Block.advance_pinIdStcp (s : Block) : (s.advance).pinIdStcp = s.pinIdStcp := by
  unfold Block.advance; split <;> rfl
@[simp] theorem Block.advance_pinIdShcp (s : Block) : (s.advance).pinIdShcp = s.pinIdShcp := by
  unfold Block.advance; split <;> rfl
@[simp] theorem Block.advance_lvlDs (s : Block) : (s.advance).lvlDs = s.lvlDs := by
  unfold Block.advance; split <;> rfl
@[simp] theorem Block.advance_lvlShcp (s : Block) : (s.advance).lvlShcp = s.lvlShcp := by
  unfold Block.advance; split <;> rfl
@[simp] theorem Block.advance_lvlStcp (s : Block) : (s.advance).lvlStcp = s.lvlStcp := by
  unfold Block.advance; split <;> rfl
@[simp] theorem Block.advance_buf (s : Block) : (s.advance).buf = s.buf := by
  unfold Block.advance; split <;> rfl
@[simp] theorem Block.advance_scanState (s : Block) : (s.advance).scanState = s.scanState := by
  unfold Block.advance; split <;> rfl
@[simp] theorem Block.advance_cancel (s : Block) : (s.advance).cancel = s.cancel := by
  unfold Block.advance; split <;> rfl
@[simp] theorem Block.advance_restartPending (s : Block) : (s.advance).restartPending = s.restartPending := by
  unfold Block.advance; split <;> rfl
@[simp] theorem Block.advance_engActive (s : Block) : (s.advance).engActive = s.engActive := by
  unfold Block.advance; split <;> rfl
@[simp] theorem Block.advance_curSel (s : Block) : (s.advance).curSel = s.curSel := by
  unfold Block.advance; split <;> rfl
@[simp] theorem Block.advance_curCol (s : Block) : (s.advance).curCol = s.curCol := by
  unfold Block.advance; split <;> rfl
@[simp] theorem Block.advance_trace (s : Block) : (s.advance).trace = s.trace := by
  unfold Block.advance; split <;> rfl

@[simp] theorem State.takePick_block (s : State) : (s.takePick.2).block = s.block := by
  unfold State.takePick; split <;> rfl
@[simp] theorem State.takePick_cascade (s : State) : (s.takePick.2).cascade = s.cascade := by
  unfold State.takePick; split <;> rfl
@[simp] theorem State.takePick_params (s : State) : (s.takePick.2).params = s.params := by
  unfold State.takePick; split <;> rfl
@[simp] theorem State.takePick_inputs (s : State) : (s.takePick.2).inputs = s.inputs := by
  unfold State.takePick; split <;> rfl
@[simp] theorem State.takePick_endless (s : State) : (s.takePick.2).endless = s.endless := by
  unfold State.takePick; split <;> rfl
@[simp] theorem State.takePick_busy (s : State) : (s.takePick.2).busy = s.busy := by
  unfold State.takePick; split <;> rfl
@[simp] theorem State.takePick_outputs (s : State) : (s.takePick.2).outputs = s.outputs := by
  unfold State.takePick; split <;> rfl
@[simp] theorem State.takePick_turns (s : State) : (s.takePick.2).turns = s.turns := by
  unfold State.takePick; split <;> rfl
@[simp] theorem State.takePick_engineWait (s : State) : (s.takePick.2).engineWait = s.engineWait := by
  unfold State.takePick; split <;> rfl
@[simp] theorem State.takePick_uop (s : State) : (s.takePick.2).uop = s.uop := by
  unfold State.takePick; split <;> rfl

end Sys2Proof.Machine
end

