-- ==== Sys2Proof/Laws/Ops.lean ====
section
/-! SUPPORT. For each shared operation, what it can do, said once. -/

namespace Sys2Proof.Machine

/-! ### Checks and commands -/

@[simp] theorem firstError_nil : firstError [] = none := rfl
@[simp] theorem firstError_none (rest : List (Option CommandError)) :
    firstError (none :: rest) = firstError rest := rfl
@[simp] theorem firstError_some (e : CommandError) (rest : List (Option CommandError)) :
    firstError (some e :: rest) = some e := rfl

/-- No check fails iff each passes. -/
theorem firstError_eq_none_iff (checks : List (Option CommandError)) :
    firstError checks = none ↔ ∀ c ∈ checks, c = none := by
  induction checks with
  | nil => simp
  | cons c rest ih => cases c <;> simp [ih]

@[simp] theorem needConstructed_eq_none (b : Block) : needConstructed b = none ↔ b.constructed = true := by
  unfold needConstructed; split <;> simp_all
@[simp] theorem needUnconstructed_eq_none (b : Block) : needUnconstructed b = none ↔ b.constructed = false := by
  unfold needUnconstructed; split <;> simp_all
@[simp] theorem needLength_eq_none (n : Nat) (e : CommandError) (p : List Word) :
    needLength n e p = none ↔ p.length = n := by
  unfold needLength; split <;> simp_all
@[simp] theorem needPayload_eq_none (good : Bool) (reason : RejectReason) :
    needPayload good reason = none ↔ good = true := by
  unfold needPayload; split <;> simp_all

/-- Everything a command can come to: turned away, its error, or its effect. -/
theorem State.runCommand_cases (s : State) (checks : List (Option CommandError)) (effect : State → State) :
    (s.busy.isSome = true ∧ s.runCommand checks effect = .refused .hostBusy) ∨
      (s.busy = none ∧ ∃ e, firstError checks = some e ∧ s.runCommand checks effect = .next (s.raise e)) ∨
      (s.busy = none ∧ firstError checks = none ∧ s.runCommand checks effect = .next (effect s)) := by
  unfold State.runCommand
  cases hb : s.busy <;> cases hc : firstError checks <;> simp

/-- A command that answers a next state ended in an error of its checks or had its effect. -/
theorem State.runCommand_next {s t : State} {checks : List (Option CommandError)} {effect : State → State}
    (h : s.runCommand checks effect = .next t) :
    s.busy = none ∧
      ((∃ e, firstError checks = some e ∧ t = s.raise e) ∨ (firstError checks = none ∧ t = effect s)) := by
  obtain ⟨-, hr⟩ | ⟨hb, e, he, hr⟩ | ⟨hb, he, hr⟩ := s.runCommand_cases checks effect
  · simp [hr] at h
  · rw [hr] at h; cases h; exact ⟨hb, .inl ⟨e, he, rfl⟩⟩
  · rw [hr] at h; cases h; exact ⟨hb, .inr ⟨he, rfl⟩⟩

/-- With nothing in progress and every check passed, a command has its effect. -/
theorem State.runCommand_ok {s : State} {checks : List (Option CommandError)} {effect : State → State}
    (hb : s.busy = none) (hc : ∀ c ∈ checks, c = none) : s.runCommand checks effect = .next (effect s) := by
  simp [State.runCommand, hb, (firstError_eq_none_iff checks).2 hc]

/-- With nothing in progress, the first failing check decides (R213). -/
theorem State.runCommand_error {s : State} {checks : List (Option CommandError)} {effect : State → State}
    {e : CommandError} (hb : s.busy = none) (hc : firstError checks = some e) :
    s.runCommand checks effect = .next (s.raise e) := by
  simp [State.runCommand, hb, hc]

/-- While a replacement is in progress, a command is turned away (R137). -/
theorem State.runCommand_busy {s : State} {checks : List (Option CommandError)} {effect : State → State}
    {r : Replacement} (hb : s.busy = some r) : s.runCommand checks effect = .refused .hostBusy := by
  simp [State.runCommand, hb]

/-! ### Responses -/

@[simp] theorem statusWord_ok : statusWord .ok = 0 := by decide
@[simp] theorem statusWord_invalidSize : statusWord .invalidSize = 1 := by decide
@[simp] theorem statusWord_rejected : statusWord .rejected = 2 := by decide

/-- A command that is REJECTED changes nothing but the responses (R212). -/
theorem State.raise_rejected (s : State) (r : RejectReason) :
    s.raise (.rejected r) = { s with outputs := s.outputs ++ [[2]] } := by
  simp [State.raise, State.respond, CommandError.status]

/-- A command that returns INVALID_SIZE changes nothing but the responses (R211). -/
theorem State.raise_invalidSize (s : State) :
    s.raise .invalidSize = { s with outputs := s.outputs ++ [[1]] } := by
  simp [State.raise, State.respond, CommandError.status]

/-! ### The lifecycle procedures -/

/-- StartScanIfIdle does what R177 says to the flags and the sequencer. -/
theorem Block.startScanIfIdle_scanStarted (b : Block) : ScanStarted b b.startScanIfIdle := by
  unfold ScanStarted Block.startScanIfIdle
  cases h : b.scanState <;> cases h' : b.engActive <;> simp [h]

/-- StartScanIfIdle leaves the pins' side alone. -/
theorem Block.startScanIfIdle_samePinSide (b : Block) : SamePinSide b b.startScanIfIdle := by
  simp [SamePinSide]

theorem Block.stopScan_idle {b : Block} (h : b.scanState = .idle) : b.stopScan = b := by
  simp [Block.stopScan, h]

theorem Block.stopScan_scanning {b : Block} (h : b.scanState = .scanning) :
    b.stopScan = { b with scanState := .idle, cancel := true, restartPending := false } := by
  simp [Block.stopScan, h]

/-- OnCancel as one update: the engine stays iff a restart was pending (R175). -/
theorem Block.onCancel_eq (b : Block) :
    b.onCancel =
      { b with cancel := false, row := 0, restartPending := false, engActive := b.restartPending && b.engActive } := by
  unfold Block.onCancel
  cases h : b.restartPending <;> simp

@[simp] theorem Block.engineEnabled_iff (b : Block) :
    b.engineEnabled = true ↔ b.constructed = true ∧ b.engActive = true := by
  simp [Block.engineEnabled]

theorem polls_iff (mode : CancelPoll) (row : Row) : polls mode row = true ↔ mode = .perRow ∨ row = 0 := by
  cases mode <;> simp [polls]

/-! ### Replacing the buffer -/

/-- Taking a pick, against its description. -/
theorem State.takePick_of_pickIs {s s' : State} {k : Nat} (h : PickIs s k s') : s.takePick = (k, s') := by
  obtain ⟨picks, hp, rfl⟩ | ⟨hp, rfl, rfl⟩ := h <;> simp [State.takePick, hp]

theorem State.pickIs_takePick (s : State) : PickIs s s.takePick.1 s.takePick.2 := by
  unfold PickIs State.takePick
  cases h : s.picks <;> simp

/-- Everything a row-writing sub-step does: it writes one row of those left and takes it off the list. -/
theorem State.replacementStep_cons (s : State) (r : Replacement) (h : r.left ≠ []) :
    ∃ row ∈ r.left,
      r.left[s.takePick.1 % r.left.length]? = some row ∧
        s.replacementStep r =
          { s.takePick.2 with
            block := s.block.bufWriteRow row (r.rows[row.toNat]'row.isLt)
            busy := some { r with left := r.left.erase row } } := by
  obtain ⟨rows, left, start⟩ := r
  cases left with
  | nil => exact absurd rfl h
  | cons first others =>
    have hlt : s.takePick.1 % (others.length + 1) < (first :: others).length := by
      exact Nat.mod_lt _ (Nat.succ_pos _)
    refine ⟨(first :: others)[s.takePick.1 % (others.length + 1)], List.getElem_mem hlt, ?_, ?_⟩
    · simp
    · simp [State.replacementStep, List.getElem?_eq_getElem hlt]

@[simp] theorem State.replacementStep_nil (s : State) (r : Replacement) (h : r.left = []) :
    s.replacementStep r = s.finishReplacement r.startScan := by
  simp [State.replacementStep, h]

/-- What a sub-step leaves alone, whichever it is (R137): the pins' side, the cascade and the port; it answers OK
or nothing. -/
theorem State.replacementStep_frame (s : State) (r : Replacement) :
    let t := s.replacementStep r
    SamePinSide s.block t.block ∧ t.cascade = s.cascade ∧ t.params = s.params ∧ t.inputs = s.inputs ∧
      t.endless = s.endless ∧ t.turns = s.turns ∧ t.engineWait = s.engineWait ∧ t.uop = s.uop ∧
      (t.outputs = s.outputs ∨ t.outputs = s.outputs ++ [[0]]) := by
  by_cases h : r.left = []
  · rw [State.replacementStep_nil _ _ h]
    cases r.startScan <;> simp [SamePinSide]
  · obtain ⟨row, -, -, h⟩ := s.replacementStep_cons r h
    simp [h, SamePinSide]

/-- What a replacement's first step, or only one, leaves alone (R57, R137). -/
theorem State.replaceBuffer_frame (s : State) (v : Rows) (startScan : Bool) :
    let t := s.replaceBuffer v startScan
    SamePinSide s.block t.block ∧ t.cascade = s.cascade ∧ t.params = s.params ∧ t.inputs = s.inputs ∧
      t.endless = s.endless ∧ t.turns = s.turns ∧ t.engineWait = s.engineWait ∧ t.uop = s.uop ∧
      (t.outputs = s.outputs ∨ t.outputs = s.outputs ++ [[0]]) := by
  unfold State.replaceBuffer
  cases s.params.bufferWriteMode
  · cases startScan <;> simp [SamePinSide]
  · exact s.replacementStep_frame ⟨v, allRows, startScan⟩

@[simp] theorem Block.bufRead_bufWriteRow (b : Block) (r r' : Row) (v : Byte) :
    (b.bufWriteRow r v).bufRead r' = if r' = r then v else b.bufRead r' := by
  unfold Block.bufRead Block.bufWriteRow
  by_cases h : r' = r
  · subst h; simp
  · have : r.toNat ≠ r'.toNat := fun e => h (BitVec.eq_of_toNat_eq e.symm)
    simp [h, this]

/-- Two blocks with the same buffer bytes have the same buffer. -/
theorem buf_ext {b b' : Block} (h : ∀ r : Row, b.bufRead r = b'.bufRead r) : b.buf = b'.buf := by
  apply Vector.ext
  intro i hi
  have := h (BitVec.ofNat 3 i)
  simpa [Block.bufRead, Nat.mod_eq_of_lt hi] using this

/-! ### Pin writes -/

@[simp] theorem State.pinWrites_nil (s : State) : s.pinWrites [] = s := rfl

@[simp] theorem State.pinWrites_cons (s : State) (e : Pin × Level) (rest : List (Pin × Level)) :
    s.pinWrites (e :: rest) = (s.pinWrite e.1 e.2).pinWrites rest := rfl

theorem State.pinWrites_append (s : State) (l l' : List (Pin × Level)) :
    s.pinWrites (l ++ l') = (s.pinWrites l).pinWrites l' := by
  induction l generalizing s with
  | nil => rfl
  | cons e l ih => simp [ih]

/-- Pin writes change only the levels, the history and the cascade (R100). -/
theorem State.pinWrites_frame (s : State) (l : List (Pin × Level)) :
    OnlyPins s.block (s.pinWrites l).block ∧ (s.pinWrites l).block.trace = s.block.trace ++ l ∧
      SamePort s (s.pinWrites l) ∧ (s.pinWrites l).outputs = s.outputs := by
  induction l generalizing s with
  | nil => simp [OnlyPins, SamePort]
  | cons e l ih =>
    obtain ⟨p, v⟩ := e
    obtain ⟨ho, ht, hp, hq⟩ := ih (s.pinWrite p v)
    refine ⟨?_, by simp [ht], ?_, by simp [hq]⟩
    · rw [State.pinWrites_cons]
      unfold OnlyPins at ho ⊢
      rw [ho]
      cases p <;> rfl
    · simpa [SamePort] using hp

/-- The writes of one bit: DS, then an SHCP pulse. -/
theorem State.pinWrites_bit (s : State) (v : Level) :
    s.pinWrites ((.ds, v) :: pulse .shcp) =
      { s with
        block := { s.block with
          lvlDs := v, lvlShcp := true, trace := s.block.trace ++ [(.ds, v), (.shcp, false), (.shcp, true)] }
        cascade := { s.cascade with sr := s.cascade.sr.extractLsb' 0 15 ++ BitVec.ofBool v } } := by
  simp [pulse, State.pinWrites, State.pinWrite, Block.drive, Block.setLevel, Cascade.observe]

/-- The writes of a latch pulse. -/
theorem State.pinWrites_latch (s : State) :
    s.pinWrites latchWrites =
      { s with
        block := { s.block with
          lvlStcp := true, trace := s.block.trace ++ [(.stcp, false), (.stcp, true)] }
        cascade := { s.cascade with q := s.cascade.sr } } := by
  simp [latchWrites, pulse, State.pinWrites, State.pinWrite, Block.drive, Block.setLevel, Cascade.observe]

/-! ### The cascade -/

/-- One shift, bit by bit (R220). -/
theorem shift_getLsbD (x : BitVec 16) (v : Bool) (i : Nat) :
    (x.extractLsb' 0 15 ++ BitVec.ofBool v : BitVec 16).getLsbD i =
      if i = 0 then v else decide (i < 16) && x.getLsbD (i - 1) := by
  show (x.extractLsb' 0 15 ++ BitVec.ofBool v : BitVec (15 + 1)).getLsbD i = _
  rw [BitVec.getLsbD_append]
  rcases i with _ | i
  · simp
  · by_cases h : i < 15
    · simp [h, show i + 1 < 16 by omega]
    · simp [h, show ¬ i + 1 < 16 by omega]

/-- One shift is a shift left with the new bit at the bottom. -/
theorem shift_eq (x : BitVec 16) (v : Bool) :
    (x.extractLsb' 0 15 ++ BitVec.ofBool v : BitVec 16) = (x <<< 1) ||| (BitVec.ofBool v).setWidth 16 := by
  apply BitVec.eq_of_getLsbD_eq
  intro i hi
  rw [shift_getLsbD]
  rcases i with _ | i
  · simp
  · simp [show i < 16 by omega, BitVec.getLsbD_eq_getElem]

/-- The bits of two bytes side by side. -/
theorem append_getLsbD (x y : Byte) (i : Nat) :
    (x ++ y : BitVec 16).getLsbD i = if i < 8 then y.getLsbD i else x.getLsbD (i - 8) := by
  show (x ++ y : BitVec (8 + 8)).getLsbD i = _
  rw [BitVec.getLsbD_append]

/-- Eight shifts put the byte, bit 7 first, in the near register and what was there in the far one. -/
theorem shift_byte (x : BitVec 16) (b : Byte) :
    [7, 6, 5, 4, 3, 2, 1, 0].foldl
        (fun (x : BitVec 16) i => (x.extractLsb' 0 15 ++ BitVec.ofBool (b.getLsbD i) : BitVec 16)) x =
      (x.extractLsb' 0 8 ++ b : BitVec 16) := by
  apply BitVec.eq_of_getLsbD_eq
  intro i hi
  simp only [List.foldl_cons, List.foldl_nil, append_getLsbD, shift_getLsbD]
  obtain ⟨n, rfl⟩ : ∃ n : Fin 16, i = n.val := ⟨⟨i, hi⟩, rfl⟩
  fin_cases n <;> simp

/-- The writes of a byte: the levels, the history, and the byte in the near register (R102, R220). -/
theorem State.pinWrites_byte (s : State) (b : Byte) :
    s.pinWrites (byteWrites b) =
      { s with
        block := { s.block with
          lvlDs := b.getLsbD 0, lvlShcp := true, trace := s.block.trace ++ byteWrites b }
        cascade := { s.cascade with sr := s.cascade.sr.extractLsb' 0 8 ++ b } } := by
  have h := shift_byte s.cascade.sr b
  simp only [List.foldl_cons, List.foldl_nil] at h
  simp only [byteWrites, List.flatMap_cons, List.flatMap_nil, State.pinWrites_append, State.pinWrites_bit,
    State.pinWrites_nil, h]
  simp [pulse]

/-- The writes of a row presentation. -/
theorem State.pinWrites_row (s : State) (sel c : Byte) :
    s.pinWrites (rowWrites sel c) =
      { s with
        block := { s.block with
          lvlDs := c.getLsbD 0, lvlShcp := true, lvlStcp := true, trace := s.block.trace ++ rowWrites sel c }
        cascade := { sr := sel ++ c, q := sel ++ c } } := by
  have h : ((s.cascade.sr.extractLsb' 0 8 ++ sel : BitVec 16).extractLsb' 0 8 ++ c : BitVec 16) = sel ++ c := by
    apply BitVec.eq_of_getLsbD_eq
    intro i hi
    rw [append_getLsbD, append_getLsbD]
    split
    · rfl
    · simp [append_getLsbD, show i - 8 < 8 by omega]
  simp only [rowWrites, State.pinWrites_append, State.pinWrites_byte, State.pinWrites_latch, h]
  simp [latchWrites, pulse]
end Sys2Proof.Machine
end

