-- ==== Sys2Proof/Laws/Fetch.lean ====
section
/-! SUPPORT. What the next step is, by whose turn it is. -/

namespace Sys2Proof.Machine

@[simp] theorem State.hostReady_iff (s : State) : s.hostReady = true ↔ s.busy ≠ none ∨ s.inputs ≠ [] ∨ s.endless = true := by
  unfold State.hostReady
  cases s.busy <;> cases s.inputs <;> simp

@[simp] theorem State.engineReady_iff (s : State) :
    s.engineReady = true ↔ s.block.constructed = true ∧ s.block.engActive = true := by
  simp [State.engineReady]

/-- With no turn listed, the HOST's contested steps and then the ENGINE's. -/
theorem State.takeTurn_of_waitIs {s s₁ : State} {n : Nat} (hl : s.turns = []) (hw : WaitIs s n s₁) :
    s.takeTurn = s₁.waitTurn n := by
  unfold State.takeTurn
  split
  · rename_i h; simp [hl] at h
  · obtain ⟨hw, rfl⟩ | ⟨hw, rfl, rfl⟩ := hw <;> split <;> simp_all

/-- What agent `a` does next. -/
def fetchTurn (a : Agent) (s : State) : Fetched :=
  match a with
  | .host => fetchHost s
  | .engine => fetchEngine s

/-- The next step by whose turn it is. -/
theorem fetch_of_turn {s s' : State} {a : Agent} (h : TurnIs s a s') :
    fetch s = fetchTurn a s' := by
  obtain ⟨hu, h⟩ := h
  simp only [fetch, hu]
  obtain ⟨hh, he, rfl, rfl⟩ | ⟨hh, he, rfl, rfl⟩ | ⟨hh, he, l, hl, rfl⟩ | ⟨hh, he, hl, n, s₁, hw, hn⟩ := h
  · have h1 := s'.hostReady_iff.2 hh
    have h2 : s'.engineReady = false := Bool.eq_false_iff.2 (mt s'.engineReady_iff.1 he)
    simp [h1, h2, fetchTurn]
  · have h1 : s'.hostReady = false := Bool.eq_false_iff.2 (mt s'.hostReady_iff.1 hh)
    have h2 := s'.engineReady_iff.2 he
    simp [h1, h2, fetchTurn]
  · simp only [s.hostReady_iff.2 hh, s.engineReady_iff.2 he, State.takeTurn, hl]
    cases a <;> rfl
  · simp only [s.hostReady_iff.2 hh, s.engineReady_iff.2 he, State.takeTurn_of_waitIs hl hw]
    obtain ⟨rfl, rfl, rfl⟩ | ⟨m, rfl, rfl, rfl⟩ := hn <;> rfl

theorem State.exists_waitIs (s : State) : ∃ n s', WaitIs s n s' := by
  cases h : s.engineWait with
  | some n => exact ⟨n, s, .inl ⟨h, rfl⟩⟩
  | none => exact ⟨_, _, .inr ⟨h, rfl, rfl⟩⟩

/-- Every step is a micro-operation given alone, some agent's turn, or nothing at all. -/
theorem fetch_cases (s : State) :
    (∃ w, s.uop = some w ∧ fetch s = fetchMicroOp w { s with uop := none }) ∨
      (∃ s', TurnIs s .host s' ∧ fetch s = fetchHost s') ∨
      (∃ s', TurnIs s .engine s' ∧ fetch s = fetchEngine s') ∨
      (s.uop = none ∧ ¬(s.block.constructed = true ∧ s.block.engActive = true) ∧ fetch s = .done s) := by
  cases hu : s.uop with
  | some w => left; exact ⟨w, rfl, by simp [fetch, hu]⟩
  | none =>
    right
    have turn : ∀ a s', TurnIs s a s' →
        (∃ s', TurnIs s .host s' ∧ fetch s = fetchHost s') ∨
          (∃ s', TurnIs s .engine s' ∧ fetch s = fetchEngine s') := by
      intro a s' h
      have hf := fetch_of_turn h
      cases a
      · exact .inl ⟨s', h, hf⟩
      · exact .inr ⟨s', h, hf⟩
    rw [← or_assoc]
    by_cases hh : s.busy ≠ none ∨ s.inputs ≠ [] ∨ s.endless = true <;>
      by_cases he : s.block.constructed = true ∧ s.block.engActive = true
    · left
      cases hl : s.turns with
      | nil =>
        obtain ⟨n, s₁, hw⟩ := s.exists_waitIs
        cases n with
        | zero => exact turn _ _ ⟨hu, .inr (.inr (.inr ⟨hh, he, hl, _, _, hw, .inl ⟨rfl, rfl, rfl⟩⟩))⟩
        | succ m => exact turn _ _ ⟨hu, .inr (.inr (.inr ⟨hh, he, hl, _, _, hw, .inr ⟨m, rfl, rfl, rfl⟩⟩))⟩
      | cons a l => exact turn a _ ⟨hu, .inr (.inr (.inl ⟨hh, he, l, hl, rfl⟩))⟩
    · exact .inl (turn _ _ ⟨hu, .inl ⟨hh, he, rfl, rfl⟩⟩)
    · exact .inl (turn _ _ ⟨hu, .inr (.inl ⟨hh, he, rfl, rfl⟩)⟩)
    · right
      have h1 : s.hostReady = false := Bool.eq_false_iff.2 (mt s.hostReady_iff.1 hh)
      have h2 : s.engineReady = false := Bool.eq_false_iff.2 (mt s.engineReady_iff.1 he)
      exact ⟨rfl, he, by simp [fetch, hu, h1, h2]⟩

/-- Taking a turn changes nothing but the choices. -/
theorem TurnIs.same {s s' : State} {a : Agent} (h : TurnIs s a s') :
    s'.block = s.block ∧ s'.cascade = s.cascade ∧ s'.params = s.params ∧ s'.inputs = s.inputs ∧
      s'.endless = s.endless ∧ s'.busy = s.busy ∧ s'.outputs = s.outputs ∧ s'.picks = s.picks ∧
      s'.uop = none := by
  obtain ⟨hu, ⟨-, -, -, rfl⟩ | ⟨-, -, -, rfl⟩ | ⟨-, -, l, -, rfl⟩ | ⟨-, -, -, n, s₁, hw, hn⟩⟩ := h
  iterate 3 simp [hu]
  obtain ⟨-, rfl⟩ | ⟨-, -, rfl⟩ := hw <;> obtain ⟨-, -, rfl⟩ | ⟨m, -, -, rfl⟩ := hn <;> simp [hu]

/-- At an ENGINE turn the engine is enabled (R170). -/
theorem TurnIs.enabled {s s' : State} (h : TurnIs s .engine s') :
    s'.block.constructed = true ∧ s'.block.engActive = true := by
  rw [h.same.1]
  obtain ⟨-, ⟨-, -, h, -⟩ | ⟨-, h, -⟩ | ⟨-, h, -⟩ | ⟨-, h, -⟩⟩ := h
  · cases h
  all_goals exact h

/-- Looking ahead, against its description. -/
theorem State.lookAhead_of_aheadIs {s s' : State} (h : AheadIs s s') : s.lookAhead = s' := by
  obtain ⟨h, rfl⟩ | ⟨hi, he, rfl⟩ := h
  · unfold State.lookAhead
    cases hi : s'.inputs with
    | nil => simp [show s'.endless = false by simpa [hi] using h]
    | cons x l => rfl
  · simp [State.lookAhead, hi, he]

theorem State.aheadIs_lookAhead (s : State) : AheadIs s s.lookAhead := by
  unfold AheadIs State.lookAhead
  cases s.inputs <;> cases s.endless <;> simp

/-- Listing the next input changes nothing but the choices. -/
theorem AheadIs.same {s s' : State} (h : AheadIs s s') :
    s'.block = s.block ∧ s'.cascade = s.cascade ∧ s'.params = s.params ∧ s'.endless = s.endless ∧
      s'.busy = s.busy ∧ s'.outputs = s.outputs ∧ s'.turns = s.turns ∧
      s'.engineWait = s.engineWait ∧ s'.picks = s.picks ∧ s'.uop = s.uop := by
  obtain ⟨-, rfl⟩ | ⟨-, -, rfl⟩ := h <;> simp

/-- At a HOST turn the next input is listed, or there is none to come. -/
theorem AheadIs.inputs_ne_nil {s s' : State} (h : AheadIs s s') (he : s.inputs ≠ [] ∨ s.endless = true) :
    s'.inputs ≠ [] := by
  obtain ⟨h, rfl⟩ | ⟨-, -, rfl⟩ := h
  · rcases h with h | h
    · exact h
    · simpa [h] using he
  · simp

/-- A HOST turn changes nothing but the choices and, where none was listed, the next input. -/
theorem HostTurnIs.same {s s' : State} (h : HostTurnIs s s') :
    s'.block = s.block ∧ s'.cascade = s.cascade ∧ s'.params = s.params ∧ s'.endless = s.endless ∧
      s'.busy = s.busy ∧ s'.outputs = s.outputs ∧ s'.picks = s.picks ∧ s'.uop = none := by
  obtain ⟨s₁, ht, ha⟩ := h
  obtain ⟨t1, t2, t3, -, t4, t5, t6, t7, t8⟩ := ht.same
  obtain ⟨a1, a2, a3, a4, a5, a6, -, -, a7, a8⟩ := ha.same
  exact ⟨a1.trans t1, a2.trans t2, a3.trans t3, a4.trans t4, a5.trans t5, a6.trans t6, a7.trans t7, a8.trans t8⟩

/-- At a HOST turn there is a command in progress or an input. -/
theorem HostTurnIs.hasWork {s s' : State} (h : HostTurnIs s s') (hb : s'.busy = none) : s'.inputs ≠ [] := by
  have hs := h.same
  obtain ⟨s₁, ht, ha⟩ := h
  obtain ⟨-, -, -, ti, te, tb, -⟩ := ht.same
  have hb' : s.busy = none := hs.2.2.2.2.1.symm.trans hb
  have hc : s.busy ≠ none ∨ s.inputs ≠ [] ∨ s.endless = true := by
    obtain ⟨-, ⟨hc, -⟩ | ⟨-, -, hc, -⟩ | ⟨hc, -⟩ | ⟨hc, -⟩⟩ := ht
    · exact hc
    · cases hc
    · exact hc
    · exact hc
  exact ha.inputs_ne_nil (by simpa [ti, te, hb'] using hc)

/-- The HOST's turn, by what its next input is. -/
theorem fetch_of_hostTurn {s s' : State} (h : HostTurnIs s s') : fetch s = fetchInput s' := by
  obtain ⟨s₁, ht, ha⟩ := h
  rw [fetch_of_turn ht]
  simp [fetchTurn, fetchHost, State.lookAhead_of_aheadIs ha]

theorem hostTurnIs_of_turn {s s₁ : State} (h : TurnIs s .host s₁) : HostTurnIs s s₁.lookAhead :=
  ⟨s₁, h, s₁.aheadIs_lookAhead⟩

/-- The HOST's step: a sub-step of the command in progress, a loss of power, nothing, or a delivery. -/
theorem fetchInput_cases (s : State) :
    (∃ r inputs, s.busy = some r ∧ inputs.length = s.inputs.length ∧
        fetchInput s = .done (({ s with inputs := inputs }).replacementStep r)) ∨
      (∃ k rest, s.inputs = .powerCycle k :: rest ∧ (s.busy = none ∨ k = 0) ∧
        fetchInput s = .done ({ s with inputs := rest }).powerCycle) ∨
      (s.busy = none ∧ s.inputs = [] ∧ fetchInput s = .done s) ∨
      (∃ words rest, s.busy = none ∧ s.inputs = .command words :: rest ∧
        fetchInput s = fetchDelivery words { s with inputs := rest }) := by
  obtain ⟨block, cascade, params, inputs, endless, busy, outputs, turns, engineWait, picks, drawn, uop⟩ := s
  cases busy with
  | some r =>
    rcases inputs with _ | ⟨words | ⟨_ | k⟩, rest⟩
    · exact .inl ⟨r, [], rfl, rfl, rfl⟩
    · exact .inl ⟨r, _, rfl, rfl, rfl⟩
    · exact .inr (.inl ⟨0, rest, rfl, .inr rfl, rfl⟩)
    · exact .inl ⟨r, .powerCycle k :: rest, rfl, rfl, rfl⟩
  | none =>
    rcases inputs with _ | ⟨words | k, rest⟩ <;> simp [fetchInput]

/-- A delivery is a decoded command, a rejection, or refused. -/
theorem fetchDelivery_cases (words : List Word) (s : State) :
    (∃ i, decodeCommand words = .ok i ∧ fetchDelivery words s = .run i s) ∨
      (∃ reason, fetchDelivery words s = .done (s.raise (.rejected reason))) ∨
      fetchDelivery words s = .stop .transportError := by
  unfold fetchDelivery
  cases h : decodeCommand words with
  | ok i => exact .inl ⟨i, rfl, rfl⟩
  | error e =>
    cases e
    case reservedTag => exact .inr (.inl ⟨_, rfl⟩)
    case reservedBits => exact .inr (.inl ⟨_, rfl⟩)
    all_goals exact .inr (.inr rfl)

/-- The sequencer's next operation (R170). -/
theorem Block.scanOp_cases (b : Block) :
    (b.mpc = 0 ∧ b.scanOp = .scanPoll) ∨ (∃ n : Fin 50, b.mpc = n.succ ∧ b.scanOp = .scanWrite n) := by
  unfold Block.scanOp
  by_cases h : b.mpc = 0
  · simp [h]
  · right; exact ⟨b.mpc.pred h, by simp, by simp [h]⟩

/-- Everything a step that answers a next state can have done (R10): performed a micro-operation given alone; as
the HOST, gone on with a replacement, lost power, run a command or rejected a header; as the ENGINE, performed
the sequencer's operation; or nothing, both agents idle. -/
theorem step_next {s t : State} (h : step s = .next t) :
    (∃ w i, s.uop = some w ∧ decodeMicroOp w = .ok i ∧ exec i { s with uop := none } = .next t) ∨
      (∃ s' r inputs, HostTurnIs s s' ∧ s'.busy = some r ∧ inputs.length = s'.inputs.length ∧
        t = ({ s' with inputs := inputs }).replacementStep r) ∨
      (∃ s' k rest, HostTurnIs s s' ∧ s'.inputs = .powerCycle k :: rest ∧
        t = ({ s' with inputs := rest }).powerCycle) ∨
      (∃ s' words rest i, HostTurnIs s s' ∧ s'.busy = none ∧ s'.inputs = .command words :: rest ∧
        decodeCommand words = .ok i ∧ exec i { s' with inputs := rest } = .next t) ∨
      (∃ s' words rest reason, HostTurnIs s s' ∧ s'.busy = none ∧ s'.inputs = .command words :: rest ∧
        t = ({ s' with inputs := rest }).raise (.rejected reason)) ∨
      (∃ s', TurnIs s .engine s' ∧ exec s'.block.scanOp s' = .next t) ∨
      (s.uop = none ∧ ¬(s.block.constructed = true ∧ s.block.engActive = true) ∧ t = s) := by
  obtain ⟨w, hu, hf⟩ | ⟨s', ht, hf⟩ | ⟨s', ht, hf⟩ | ⟨hu, he, hf⟩ := fetch_cases s
  · left
    unfold fetchMicroOp at hf
    cases hd : decodeMicroOp w with
    | ok i => exact ⟨w, i, hu, hd, by simpa [step, hf, hd] using h⟩
    | error e => simp [step, hf, hd] at h
  · right
    have hx := hostTurnIs_of_turn ht
    replace hf : fetch s = fetchInput s'.lookAhead := hf
    generalize s'.lookAhead = u at hx hf
    obtain ⟨r, inputs, hb, hl, hh⟩ | ⟨k, rest, hi, hb, hh⟩ | ⟨hb, hi, hh⟩ | ⟨words, rest, hb, hi, hh⟩ := fetchInput_cases u
    · left; exact ⟨u, r, inputs, hx, hb, hl, by simpa [step, hf, hh] using h.symm⟩
    · right; left; exact ⟨u, k, rest, hx, hi, by simpa [step, hf, hh] using h.symm⟩
    · exact absurd hi (hx.hasWork hb)
    · right; right
      obtain ⟨i, hd, hq⟩ | ⟨reason, hq⟩ | hq := fetchDelivery_cases words { u with inputs := rest }
      · left; exact ⟨u, words, rest, i, hx, hb, hi, hd, by simpa [step, hf, hh, hq] using h⟩
      · right; left; exact ⟨u, words, rest, reason, hx, hb, hi, by simpa [step, hf, hh, hq] using h.symm⟩
      · simp [step, hf, hh, hq] at h
  · iterate 5 right
    left; exact ⟨s', ht, by simpa [step, hf, fetchEngine] using h⟩
  · iterate 6 right
    exact ⟨hu, he, by simpa [step, hf] using h.symm⟩

end Sys2Proof.Machine
end

