-- ==== Sys2Proof/Laws/Exec.lean ====
section
/-! SUPPORT. What each instruction's meaning comes to, by its conditions. -/

namespace Sys2Proof.Machine

/-! ### Commands that pass their checks -/

theorem exec_construct_ok {s : State} {p : List Word} (hb : s.busy = none) (hc : s.block.constructed = false)
    (hl : p.length = 3) (hd : pinsDistinct p = true) :
    exec (.construct p) s =
      .next (({ s with
        block := Block.afterConstruct (p.getD 0 0) (p.getD 1 0) (p.getD 2 0) }).respond .ok []) := by
  show execConstruct p s = _
  exact State.runCommand_ok hb (by simp [hc, hl, hd])

theorem exec_setImageFlat_ok {s : State} {p : List Word} (hb : s.busy = none) (hc : s.block.constructed = true)
    (hl : p.length = 64) : exec (.setImageFlat p) s = .next (s.replaceBuffer (packFlat p) true) := by
  show execSetImageFlat p s = _
  exact State.runCommand_ok hb (by simp [hc, hl])

theorem exec_setImagePacked_ok {s : State} {p : List Word} (hb : s.busy = none) (hc : s.block.constructed = true)
    (hl : p.length = 8) (hp : ∀ w ∈ p, w.toNat < 256) :
    exec (.setImagePacked p) s = .next (s.replaceBuffer (packedRows p) true) := by
  show execSetImagePacked p s = _
  exact State.runCommand_ok hb (by simp [hc, hl, (packedHighBits_eq_false_iff p).2 hp])

theorem exec_clear_ok {s : State} {p : List Word} (hb : s.busy = none) (hc : s.block.constructed = true)
    (hl : p.length = 1) : exec (.clear p) s = .next (s.replaceBuffer (fillRows (p.getD 0 0)) false) := by
  show execClear p s = _
  exact State.runCommand_ok hb (by simp [hc, hl])

theorem exec_stop_ok {s : State} {p : List Word} (hb : s.busy = none) (hc : s.block.constructed = true)
    (hl : p.length = 0) :
    exec (.stop p) s = .next (({ s with block := s.block.stopScan }).respond .ok []) := by
  show execStop p s = _
  exact State.runCommand_ok hb (by simp [hc, hl])

theorem exec_readBuffer_ok {s : State} {p : List Word} (hb : s.busy = none) (hc : s.block.constructed = true)
    (hl : p.length = 0) : exec (.readBuffer p) s = .next (s.respond .ok s.block.bufWords) := by
  show execReadBuffer p s = _
  exact State.runCommand_ok hb (by simp [hc, hl])

/-! ### Commands while another is in progress, and the first failing check -/

/-- While a replacement is in progress every HOST command is turned away (R137). -/
theorem exec_command_busy {s : State} {r : Replacement} (hb : s.busy = some r) (p : List Word) :
    exec (.construct p) s = .refused .hostBusy ∧ exec (.setImageFlat p) s = .refused .hostBusy ∧
      exec (.setImagePacked p) s = .refused .hostBusy ∧ exec (.clear p) s = .refused .hostBusy ∧
      exec (.stop p) s = .refused .hostBusy ∧ exec (.readBuffer p) s = .refused .hostBusy := by
  simp only [exec, execConstruct, execSetImageFlat, execSetImagePacked, execClear, execStop, execReadBuffer]
  refine ⟨?_, ?_, ?_, ?_, ?_, ?_⟩ <;> exact State.runCommand_busy hb

/-- Before CONSTRUCT every other command is REJECTED (R240). -/
theorem exec_command_notConstructed {s : State} (hb : s.busy = none) (hc : s.block.constructed = false)
    (p : List Word) :
    exec (.setImageFlat p) s = .next (s.raise (.rejected .notConstructed)) ∧
      exec (.setImagePacked p) s = .next (s.raise (.rejected .notConstructed)) ∧
      exec (.clear p) s = .next (s.raise (.rejected .notConstructed)) ∧
      exec (.stop p) s = .next (s.raise (.rejected .notConstructed)) ∧
      exec (.readBuffer p) s = .next (s.raise (.rejected .notConstructed)) := by
  have h : needConstructed s.block = some (.rejected .notConstructed) := by simp [needConstructed, hc]
  simp only [exec, execSetImageFlat, execSetImagePacked, execClear, execStop, execReadBuffer]
  refine ⟨?_, ?_, ?_, ?_, ?_⟩ <;> exact State.runCommand_error hb (by simp [h])

/-! ### Everything a command can come to -/

theorem exec_construct_next {s t : State} {p : List Word} (h : exec (.construct p) s = .next t) :
    s.busy = none ∧
      ((∃ r, t = s.raise (.rejected r)) ∨
        (s.block.constructed = false ∧ p.length = 3 ∧ pinsDistinct p = true ∧
          t = ({ s with
            block := Block.afterConstruct (p.getD 0 0) (p.getD 1 0) (p.getD 2 0) }).respond .ok [])) := by
  obtain ⟨hb, ⟨e, he, rfl⟩ | ⟨he, rfl⟩⟩ := State.runCommand_next (show execConstruct p s = _ from h)
  · refine ⟨hb, .inl ?_⟩
    unfold needUnconstructed needLength needPayload at he
    repeat' split at he
    all_goals simp at he <;> subst he <;> exact ⟨_, rfl⟩
  · have := by simpa [firstError_eq_none_iff] using he
    exact ⟨hb, .inr (by simpa [and_assoc] using this)⟩

theorem exec_setImageFlat_next {s t : State} {p : List Word} (h : exec (.setImageFlat p) s = .next t) :
    s.busy = none ∧
      ((∃ r, t = s.raise (.rejected r)) ∨ (p.length ≠ 64 ∧ t = s.raise .invalidSize) ∨
        (s.block.constructed = true ∧ p.length = 64 ∧
          t = s.replaceBuffer (packFlat p) true)) := by
  obtain ⟨hb, ⟨e, he, rfl⟩ | ⟨he, rfl⟩⟩ := State.runCommand_next (show execSetImageFlat p s = _ from h)
  · refine ⟨hb, ?_⟩
    rw [← or_assoc]; left
    unfold needConstructed needLength at he
    repeat' split at he
    all_goals simp at he <;> subst he <;> first | exact .inl ⟨_, rfl⟩ | exact .inr ⟨‹_›, rfl⟩
  · have := by simpa [firstError_eq_none_iff] using he
    exact ⟨hb, .inr (.inr (by simpa [and_assoc] using this))⟩

theorem exec_setImagePacked_next {s t : State} {p : List Word} (h : exec (.setImagePacked p) s = .next t) :
    s.busy = none ∧
      ((∃ r, t = s.raise (.rejected r)) ∨ (p.length ≠ 8 ∧ t = s.raise .invalidSize) ∨
        (s.block.constructed = true ∧ p.length = 8 ∧ packedHighBits p = false ∧
          t = s.replaceBuffer (packedRows p) true)) := by
  obtain ⟨hb, ⟨e, he, rfl⟩ | ⟨he, rfl⟩⟩ := State.runCommand_next (show execSetImagePacked p s = _ from h)
  · refine ⟨hb, ?_⟩
    rw [← or_assoc]; left
    unfold needConstructed needLength needPayload at he
    repeat' split at he
    all_goals simp at he <;> subst he <;> first | exact .inl ⟨_, rfl⟩ | exact .inr ⟨‹_›, rfl⟩
  · have := by simpa [firstError_eq_none_iff] using he
    exact ⟨hb, .inr (.inr (by simpa [and_assoc] using this))⟩

theorem exec_clear_next {s t : State} {p : List Word} (h : exec (.clear p) s = .next t) :
    s.busy = none ∧
      ((∃ r, t = s.raise (.rejected r)) ∨
        (s.block.constructed = true ∧ p.length = 1 ∧
          t = s.replaceBuffer (fillRows (p.getD 0 0)) false)) := by
  obtain ⟨hb, ⟨e, he, rfl⟩ | ⟨he, rfl⟩⟩ := State.runCommand_next (show execClear p s = _ from h)
  · refine ⟨hb, .inl ?_⟩
    unfold needConstructed needLength at he
    repeat' split at he
    all_goals simp at he <;> subst he <;> exact ⟨_, rfl⟩
  · have := by simpa [firstError_eq_none_iff] using he
    exact ⟨hb, .inr (by simpa [and_assoc] using this)⟩

theorem exec_stop_next {s t : State} {p : List Word} (h : exec (.stop p) s = .next t) :
    s.busy = none ∧
      ((∃ r, t = s.raise (.rejected r)) ∨
        (s.block.constructed = true ∧ p.length = 0 ∧
          t = ({ s with block := s.block.stopScan }).respond .ok [])) := by
  obtain ⟨hb, ⟨e, he, rfl⟩ | ⟨he, rfl⟩⟩ := State.runCommand_next (show execStop p s = _ from h)
  · refine ⟨hb, .inl ?_⟩
    unfold needConstructed needLength at he
    repeat' split at he
    all_goals simp at he <;> subst he <;> exact ⟨_, rfl⟩
  · have := by simpa [firstError_eq_none_iff] using he
    exact ⟨hb, .inr (by simpa [and_assoc] using this)⟩

theorem exec_readBuffer_next {s t : State} {p : List Word} (h : exec (.readBuffer p) s = .next t) :
    s.busy = none ∧
      ((∃ r, t = s.raise (.rejected r)) ∨
        (s.block.constructed = true ∧ p.length = 0 ∧
          t = s.respond .ok s.block.bufWords)) := by
  obtain ⟨hb, ⟨e, he, rfl⟩ | ⟨he, rfl⟩⟩ := State.runCommand_next (show execReadBuffer p s = _ from h)
  · refine ⟨hb, .inl ?_⟩
    unfold needConstructed needLength at he
    repeat' split at he
    all_goals simp at he <;> subst he <;> exact ⟨_, rfl⟩
  · have := by simpa [firstError_eq_none_iff] using he
    exact ⟨hb, .inr (by simpa [and_assoc] using this)⟩

/-! ### Link operations -/

theorem exec_pinWrite (p : Pin) (v : Level) (s : State) : exec (.pinWrite p v) s = .next (s.pinWrite p v) := rfl

theorem exec_pushByte (b : Byte) (s : State) : exec (.pushByte b) s = .next (s.pinWrites (byteWrites b)) := rfl

theorem exec_latch (s : State) : exec .latch s = .next (s.pinWrites latchWrites) := rfl

theorem exec_presentRow (r : Row) (b : Byte) (s : State) :
    exec (.presentRow r b) s = .next (s.pinWrites (rowWrites (selector r) b)) := by
  simp only [exec, execPresentRow, rowWrites, State.pinWrites_append]

/-! ### The engine's operations -/

theorem exec_scanPoll_next {s t : State} (h : exec .scanPoll s = .next t) :
    s.block.constructed = true ∧ s.block.engActive = true ∧ s.block.mpc = 0 ∧
      ((polls s.params.cancelPoll s.block.row = true ∧ s.block.cancel = true ∧
          t = { s with block := s.block.onCancel }) ∨
        ((polls s.params.cancelPoll s.block.row = false ∨ s.block.cancel = false) ∧
          t = { s with block := s.block.startRow })) := by
  change execScanPoll s = _ at h
  unfold execScanPoll at h
  split at h
  · next he =>
    split at h
    · next hm =>
      obtain ⟨h1, h2⟩ := s.block.engineEnabled_iff.1 he
      refine ⟨h1, h2, hm, ?_⟩
      split at h
      · next hp => simp only [Bool.and_eq_true] at hp; cases h; exact .inl ⟨hp.1, hp.2, rfl⟩
      · next hp =>
        simp only [Bool.and_eq_true, not_and_or, Bool.not_eq_true] at hp
        cases h; exact .inr ⟨hp, rfl⟩
    · cases h
  · cases h

theorem exec_scanPoll_start {s : State} (hc : s.block.constructed = true) (he : s.block.engActive = true)
    (hm : s.block.mpc = 0) (hp : polls s.params.cancelPoll s.block.row = false ∨ s.block.cancel = false) :
    exec .scanPoll s = .next { s with block := s.block.startRow } := by
  show execScanPoll s = _
  have : (polls s.params.cancelPoll s.block.row && s.block.cancel) = false := by
    obtain h | h := hp <;> simp [h]
  simp [execScanPoll, Block.engineEnabled, hc, he, hm, this]

theorem exec_scanPoll_cancel {s : State} (hc : s.block.constructed = true) (he : s.block.engActive = true)
    (hm : s.block.mpc = 0) (hp : polls s.params.cancelPoll s.block.row = true) (hx : s.block.cancel = true) :
    exec .scanPoll s = .next { s with block := s.block.onCancel } := by
  show execScanPoll s = _
  simp [execScanPoll, Block.engineEnabled, hc, he, hm, hp, hx]

/-- The state after SCAN_WRITE n: its pin write, and the sequencer advanced. -/
def State.scanned (s : State) (n : Fin 50) : State :=
  let e := seqW s.block.curSel s.block.curCol n
  { s.pinWrite e.1 e.2 with block := (s.pinWrite e.1 e.2).block.advance }

theorem exec_scanWrite_ok {s : State} {n : Fin 50} (hc : s.block.constructed = true)
    (he : s.block.engActive = true) (hm : s.block.mpc = n.succ) : exec (.scanWrite n) s = .next (s.scanned n) := by
  show execScanWrite n s = _
  simp [execScanWrite, Block.engineEnabled, hc, he, hm, State.scanned]

theorem exec_scanWrite_next {s t : State} {n : Fin 50} (h : exec (.scanWrite n) s = .next t) :
    s.block.constructed = true ∧ s.block.engActive = true ∧ s.block.mpc = n.succ ∧ t = s.scanned n := by
  have h' := h
  change execScanWrite n s = _ at h
  unfold execScanWrite at h
  split at h
  · next he =>
    obtain ⟨h1, h2⟩ := s.block.engineEnabled_iff.1 he
    split at h
    · next hm =>
      rw [exec_scanWrite_ok h1 h2 hm] at h'
      cases h'; exact ⟨h1, h2, hm, rfl⟩
    · cases h
  · cases h

/-! ### Everything a delivered command, and a step of the ENGINE, can come to -/

/-- A delivered command that answers a next state had no other in progress and ended in an error, constructed the
block, replaced the buffer, stopped the scan, or read the buffer (R130). -/
theorem exec_command_next {i : Instr} {s t : State} {words : List Word} (hd : decodeCommand words = .ok i)
    (h : exec i s = .next t) :
    s.busy = none ∧
      ((∃ e, t = s.raise e) ∨
        (s.block.constructed = false ∧ ∃ ds stcp shcp,
          t = ({ s with block := Block.afterConstruct ds stcp shcp }).respond .ok []) ∨
        (s.block.constructed = true ∧ ∃ v startScan, t = s.replaceBuffer v startScan) ∨
        (s.block.constructed = true ∧ t = ({ s with block := s.block.stopScan }).respond .ok []) ∨
        (s.block.constructed = true ∧ t = s.respond .ok s.block.bufWords)) := by
  obtain ⟨_, p, -, -, -, hc⟩ := decodeCommand_ok hd
  obtain ⟨-, rfl⟩ | ⟨-, rfl⟩ | ⟨-, rfl⟩ | ⟨-, rfl⟩ | ⟨-, rfl⟩ | ⟨-, rfl⟩ := commandOfTag_eq_some hc
  · obtain ⟨hb, ⟨r, h⟩ | ⟨h1, -, -, h⟩⟩ := exec_construct_next h
    exacts [⟨hb, .inl ⟨_, h⟩⟩, ⟨hb, .inr (.inl ⟨h1, _, _, _, h⟩)⟩]
  · obtain ⟨hb, ⟨r, h⟩ | ⟨-, h⟩ | ⟨h1, -, h⟩⟩ := exec_setImageFlat_next h
    exacts [⟨hb, .inl ⟨_, h⟩⟩, ⟨hb, .inl ⟨_, h⟩⟩, ⟨hb, .inr (.inr (.inl ⟨h1, _, _, h⟩))⟩]
  · obtain ⟨hb, ⟨r, h⟩ | ⟨-, h⟩ | ⟨h1, -, -, h⟩⟩ := exec_setImagePacked_next h
    exacts [⟨hb, .inl ⟨_, h⟩⟩, ⟨hb, .inl ⟨_, h⟩⟩, ⟨hb, .inr (.inr (.inl ⟨h1, _, _, h⟩))⟩]
  · obtain ⟨hb, ⟨r, h⟩ | ⟨h1, -, h⟩⟩ := exec_clear_next h
    exacts [⟨hb, .inl ⟨_, h⟩⟩, ⟨hb, .inr (.inr (.inl ⟨h1, _, _, h⟩))⟩]
  · obtain ⟨hb, ⟨r, h⟩ | ⟨h1, -, h⟩⟩ := exec_stop_next h
    exacts [⟨hb, .inl ⟨_, h⟩⟩, ⟨hb, .inr (.inr (.inr (.inl ⟨h1, h⟩)))⟩]
  · obtain ⟨hb, ⟨r, h⟩ | ⟨h1, -, h⟩⟩ := exec_readBuffer_next h
    exacts [⟨hb, .inl ⟨_, h⟩⟩, ⟨hb, .inr (.inr (.inr (.inr ⟨h1, h⟩)))⟩]

/-- The sequencer's operation, when it answers a next state, honoured a cancel request, started a row, or
performed one pin write of the row in flight (R170). -/
theorem exec_scanOp_next {s t : State} (h : exec s.block.scanOp s = .next t) :
    s.block.constructed = true ∧ s.block.engActive = true ∧
      ((s.block.mpc = 0 ∧ polls s.params.cancelPoll s.block.row = true ∧ s.block.cancel = true ∧
          t = { s with block := s.block.onCancel }) ∨
        (s.block.mpc = 0 ∧ (polls s.params.cancelPoll s.block.row = false ∨ s.block.cancel = false) ∧
          t = { s with block := s.block.startRow }) ∨
        ∃ n, s.block.mpc = n.succ ∧ t = s.scanned n) := by
  obtain ⟨hm, ho⟩ | ⟨n, hm, ho⟩ := s.block.scanOp_cases
  · rw [ho] at h
    obtain ⟨h1, h2, -, ⟨hp, hx, h⟩ | ⟨hp, h⟩⟩ := exec_scanPoll_next h
    exacts [⟨h1, h2, .inl ⟨hm, hp, hx, h⟩⟩, ⟨h1, h2, .inr (.inl ⟨hm, hp, h⟩)⟩]
  · rw [ho] at h
    obtain ⟨h1, h2, -, h⟩ := exec_scanWrite_next h
    exact ⟨h1, h2, .inr (.inr ⟨n, hm, h⟩)⟩

/-- A HOST step that leaves the engine active leaves the turns to come as taking its own left them; only a loss of
power changes them (log 14). -/
theorem step_hostTurn_turns {s t s' : State} (hs : HostTurnIs s s') (h : step s = .next t)
    (he : t.block.engActive = true) : t.turns = s'.turns ∧ t.engineWait = s'.engineWait := by
  have hf := fetch_of_hostTurn hs
  obtain ⟨r, inputs, -, -, hh⟩ | ⟨k, rest, -, -, hh⟩ | ⟨-, -, hh⟩ | ⟨words, rest, -, -, hh⟩ := fetchInput_cases s'
  · obtain rfl : ({ s' with inputs := inputs }).replacementStep r = t := by simpa [step, hf, hh] using h
    obtain ⟨-, -, -, -, -, h1, h2, -⟩ := ({ s' with inputs := inputs }).replacementStep_frame r
    exact ⟨h1, h2⟩
  · obtain rfl : ({ s' with inputs := rest }).powerCycle = t := by simpa [step, hf, hh] using h
    cases he
  · obtain rfl : s' = t := by simpa [step, hf, hh] using h
    exact ⟨rfl, rfl⟩
  · obtain ⟨i, hd, hq⟩ | ⟨reason, hq⟩ | hq := fetchDelivery_cases words { s' with inputs := rest }
    · have hx : exec i { s' with inputs := rest } = .next t := by simpa [step, hf, hh, hq] using h
      obtain ⟨-, ⟨e, rfl⟩ | ⟨-, a, b, c, rfl⟩ | ⟨-, v, b, rfl⟩ | ⟨-, rfl⟩ | ⟨-, rfl⟩⟩ := exec_command_next hd hx
      case inr.inr.inl =>
        obtain ⟨-, -, -, -, -, h1, h2, -⟩ := ({ s' with inputs := rest }).replaceBuffer_frame v b
        exact ⟨h1, h2⟩
      all_goals exact ⟨rfl, rfl⟩
    · obtain rfl : ({ s' with inputs := rest }).raise (.rejected reason) = t := by simpa [step, hf, hh, hq] using h
      exact ⟨rfl, rfl⟩
    · simp [step, hf, hh, hq] at h

end Sys2Proof.Machine
end

