-- ==== Sys2Proof/Laws/Invariant.lean ====
section
/-! SUPPORT. The block's invariant (10_state.md R33) and the shared operations, one at a time. -/

namespace Sys2Proof.Machine

/-- The invariant looks at six elements only; of `mpc`, only with no engine. -/
theorem Block.Inv.of_same {b b' : Block} (h : b.Inv) (he : b.engActive = true)
    (hc : b'.constructed = b.constructed) (ha : b'.engActive = b.engActive) (hs : b'.scanState = b.scanState)
    (hx : b'.cancel = b.cancel) (hr : b'.restartPending = b.restartPending) : b'.Inv := by
  obtain ⟨i1, i2, i3, i4, i5, i6, i7⟩ := h
  constructor <;> simp_all [Block.lifecycle]

theorem Block.Inv.withBuf {b : Block} (h : b.Inv) (v : Rows) : ({ b with buf := v }).Inv :=
  ⟨h.inv1, h.inv2, h.inv3, h.inv4, h.inv5, h.inv6, h.reachable⟩

theorem Block.Inv.startScanIfIdle {b : Block} (h : b.Inv) (hc : b.constructed = true) : b.startScanIfIdle.Inv := by
  have hk := h
  obtain ⟨i1, i2, i3, i4, i5, i6, i7⟩ := h
  unfold Block.startScanIfIdle
  cases h1 : b.scanState
  · cases h2 : b.engActive <;> simp only [h1, h2] at * <;> constructor <;> simp_all [Block.lifecycle]
  · exact hk

theorem Block.Inv.stopScan {b : Block} (h : b.Inv) (hc : b.constructed = true) : b.stopScan.Inv := by
  have hk := h
  obtain ⟨i1, i2, i3, i4, i5, i6, i7⟩ := h
  unfold Block.stopScan
  cases h1 : b.scanState
  · exact hk
  · simp only [h1] at *
    constructor <;> simp_all [Block.lifecycle]

theorem Block.Inv.onCancel {b : Block} (h : b.Inv) (hc : b.constructed = true) (hm : b.mpc = 0)
    (hx : b.cancel = true) : b.onCancel.Inv := by
  obtain ⟨i1, i2, i3, i4, i5, i6, i7⟩ := h
  rw [Block.onCancel_eq]
  constructor <;> simp only [Block.lifecycle] at *
  all_goals cases h1 : b.scanState <;> cases h2 : b.restartPending <;> cases h3 : b.engActive <;> simp_all

theorem Block.inv_powerUp : Block.powerUp.Inv := by
  constructor <;> decide

theorem Block.inv_afterConstruct (ds stcp shcp : Word) : (Block.afterConstruct ds stcp shcp).Inv := by
  constructor <;> simp [Block.afterConstruct, Block.lifecycle]

/-- Under the invariant an active engine belongs to a constructed block, so it has a step (R170). -/
theorem Block.Inv.enabled_of_active {b : Block} (h : b.Inv) (he : b.engActive = true) :
    b.constructed = true ∧ b.engActive = true := by
  refine ⟨?_, he⟩
  by_contra hn
  have := (h.inv6 (Bool.eq_false_iff.2 hn)).1
  simp [this] at he

/-- Under the invariant a block with a cancel request has an engine with a step. -/
theorem Block.Inv.enabled_of_cancel {b : Block} (h : b.Inv) (hx : b.cancel = true) :
    b.constructed = true ∧ b.engActive = true := by
  refine h.enabled_of_active ?_
  by_contra hn
  have := (h.inv5 (Bool.eq_false_iff.2 hn)).2.1
  simp [this] at hx

end Sys2Proof.Machine
end

