-- ==== Sys2Proof/Laws/PerInstr.lean ====
section
/-! SUPPORT. For every instruction: what the words that encode it look like (30_encoding.md R71, R74, R79,
R80). -/

namespace Sys2Proof.Laws

open Sys2Proof

/-- Tag spaces kept apart: a well-formed command is one header whose TAG is below 6, whose RSVD bits are 0 and
whose LEN is the count of the words after it (R71, R74); a micro-operation is one word whose UTAG lies between 8
and 13 (R79, R80). -/
def WordShape.Statement (i : Instr) : Prop :=
  i.wellFormed = true →
    (∃ h payload, encode i = .command (h :: payload) ∧ (headerTag h).toNat < 6 ∧ headerRsvd h = 0#12 ∧
      (headerLen h).toNat = payload.length) ∨
    (∃ w : BitVec 16, encode i = .microOp w ∧ 8 ≤ w.toNat % 16 ∧ w.toNat % 16 < 14)

/-- A command of a tag below 6 whose payload count fits has that shape. -/
theorem wordShape_command {i : Instr} {tag : BitVec 4} {p : List Word} (ht : tag.toNat < 6)
    (he : encode i = encodeCommand tag p) (hw : i.wellFormed = lenFits p) : WordShape.Statement i := by
  intro h
  have hl : p.length < 65536 := by simpa [lenFits] using hw.symm.trans h
  exact .inl ⟨_, p, he, by simpa using ht, by simp, by simp; omega⟩

/-- The low four bits of a word that ends in a four-bit field. -/
theorem append_nibble (x : BitVec 12) (tag : BitVec 4) : (x ++ tag : BitVec (12 + 4)).toNat % 16 = tag.toNat := by
  have h := congrArg BitVec.toNat (BitVec.setWidth_append (x := x) (y := tag) (k := 4))
  simpa using h

/-- A word whose low four bits are a UTAG of R79 has that shape. -/
theorem wordShape_microOp {i : Instr} {x : BitVec 12} {tag : BitVec 4} (ht : 8 ≤ tag.toNat) (ht' : tag.toNat < 14)
    (he : encode i = .microOp (x ++ tag)) : WordShape.Statement i :=
  fun _ => .inr ⟨_, he, (append_nibble x tag).symm ▸ ht, (append_nibble x tag).symm ▸ ht'⟩

theorem WordShape.construct (payload : List Word) : WordShape.Statement (.construct payload) :=
  wordShape_command (by decide) rfl rfl
theorem WordShape.setImageFlat (payload : List Word) : WordShape.Statement (.setImageFlat payload) :=
  wordShape_command (by decide) rfl rfl
theorem WordShape.setImagePacked (payload : List Word) : WordShape.Statement (.setImagePacked payload) :=
  wordShape_command (by decide) rfl rfl
theorem WordShape.clear (payload : List Word) : WordShape.Statement (.clear payload) :=
  wordShape_command (by decide) rfl rfl
theorem WordShape.stop (payload : List Word) : WordShape.Statement (.stop payload) :=
  wordShape_command (by decide) rfl rfl
theorem WordShape.readBuffer (payload : List Word) : WordShape.Statement (.readBuffer payload) :=
  wordShape_command (by decide) rfl rfl
theorem WordShape.pinWrite (p : Pin) (v : Level) : WordShape.Statement (.pinWrite p v) :=
  wordShape_microOp (tag := 0x8) (by decide) (by decide) rfl
theorem WordShape.pushByte (b : Byte) : WordShape.Statement (.pushByte b) :=
  wordShape_microOp (tag := 0x9) (by decide) (by decide) rfl
theorem WordShape.latch : WordShape.Statement .latch :=
  wordShape_microOp (tag := 0xA) (by decide) (by decide) rfl
theorem WordShape.presentRow (r : Row) (b : Byte) : WordShape.Statement (.presentRow r b) :=
  wordShape_microOp (tag := 0xB) (by decide) (by decide) rfl
theorem WordShape.scanPoll : WordShape.Statement .scanPoll :=
  wordShape_microOp (tag := 0xC) (by decide) (by decide) rfl
theorem WordShape.scanWrite (n : Fin 50) : WordShape.Statement (.scanWrite n) :=
  wordShape_microOp (tag := 0xD) (by decide) (by decide) rfl

end Sys2Proof.Laws
end

