-- ==== Sys2Proof/Laws/Run.lean ====
section
/-! SUPPORT. Runs of an engine that is alone: what its steps come to, one row at a time. -/

namespace Sys2Proof.Machine

/-! ### Several pin writes: what they leave alone -/

@[simp] theorem State.pinWrites_constructed (s : State) (l : List (Pin × Level)) :
    (s.pinWrites l).block.constructed = s.block.constructed := by
  rw [(s.pinWrites_frame l).1]
@[simp] theorem State.pinWrites_pinIdDs (s : State) (l : List (Pin × Level)) :
    (s.pinWrites l).block.pinIdDs = s.block.pinIdDs := by
  rw [(s.pinWrites_frame l).1]
@[simp] theorem State.pinWrites_pinIdStcp (s : State) (l : List (Pin × Level)) :
    (s.pinWrites l).block.pinIdStcp = s.block.pinIdStcp := by
  rw [(s.pinWrites_frame l).1]
@[simp] theorem State.pinWrites_pinIdShcp (s : State) (l : List (Pin × Level)) :
    (s.pinWrites l).block.pinIdShcp = s.block.pinIdShcp := by
  rw [(s.pinWrites_frame l).1]
@[simp] theorem State.pinWrites_buf (s : State) (l : List (Pin × Level)) :
    (s.pinWrites l).block.buf = s.block.buf := by
  rw [(s.pinWrites_frame l).1]
@[simp] theorem State.pinWrites_scanState (s : State) (l : List (Pin × Level)) :
    (s.pinWrites l).block.scanState = s.block.scanState := by
  rw [(s.pinWrites_frame l).1]
@[simp] theorem State.pinWrites_cancel (s : State) (l : List (Pin × Level)) :
    (s.pinWrites l).block.cancel = s.block.cancel := by
  rw [(s.pinWrites_frame l).1]
@[simp] theorem State.pinWrites_restartPending (s : State) (l : List (Pin × Level)) :
    (s.pinWrites l).block.restartPending = s.block.restartPending := by
  rw [(s.pinWrites_frame l).1]
@[simp] theorem State.pinWrites_engActive (s : State) (l : List (Pin × Level)) :
    (s.pinWrites l).block.engActive = s.block.engActive := by
  rw [(s.pinWrites_frame l).1]
@[simp] theorem State.pinWrites_blockRow (s : State) (l : List (Pin × Level)) :
    (s.pinWrites l).block.row = s.block.row := by
  rw [(s.pinWrites_frame l).1]
@[simp] theorem State.pinWrites_mpc (s : State) (l : List (Pin × Level)) :
    (s.pinWrites l).block.mpc = s.block.mpc := by
  rw [(s.pinWrites_frame l).1]
@[simp] theorem State.pinWrites_curSel (s : State) (l : List (Pin × Level)) :
    (s.pinWrites l).block.curSel = s.block.curSel := by
  rw [(s.pinWrites_frame l).1]
@[simp] theorem State.pinWrites_curCol (s : State) (l : List (Pin × Level)) :
    (s.pinWrites l).block.curCol = s.block.curCol := by
  rw [(s.pinWrites_frame l).1]
@[simp] theorem State.pinWrites_trace (s : State) (l : List (Pin × Level)) :
    (s.pinWrites l).block.trace = s.block.trace ++ l := (s.pinWrites_frame l).2.1
@[simp] theorem State.pinWrites_params (s : State) (l : List (Pin × Level)) :
    (s.pinWrites l).params = s.params := (s.pinWrites_frame l).2.2.1.1
@[simp] theorem State.pinWrites_inputs (s : State) (l : List (Pin × Level)) :
    (s.pinWrites l).inputs = s.inputs := (s.pinWrites_frame l).2.2.1.2.1
@[simp] theorem State.pinWrites_endless (s : State) (l : List (Pin × Level)) :
    (s.pinWrites l).endless = s.endless := (s.pinWrites_frame l).2.2.1.2.2.1
@[simp] theorem State.pinWrites_busy (s : State) (l : List (Pin × Level)) :
    (s.pinWrites l).busy = s.busy := (s.pinWrites_frame l).2.2.1.2.2.2.1
@[simp] theorem State.pinWrites_uop (s : State) (l : List (Pin × Level)) :
    (s.pinWrites l).uop = s.uop := (s.pinWrites_frame l).2.2.1.2.2.2.2.2.2.2.2
@[simp] theorem State.pinWrites_outputs (s : State) (l : List (Pin × Level)) :
    (s.pinWrites l).outputs = s.outputs := (s.pinWrites_frame l).2.2.2

/-! ### The sequencer set to a place -/

/-- `s` with the sequencer at (r, m). -/
def State.atSeq (s : State) (r : Row) (m : Fin 51) : State :=
  { s with block := { s.block with row := r, mpc := m } }

/-- Pin writes do not look at the sequencer. -/
theorem State.atSeq_pinWrites (s : State) (r : Row) (m : Fin 51) (l : List (Pin × Level)) :
    (s.atSeq r m).pinWrites l = (s.pinWrites l).atSeq r m := by
  induction l generalizing s with
  | nil => rfl
  | cons e l ih =>
    obtain ⟨p, v⟩ := e
    rw [State.pinWrites_cons, State.pinWrites_cons, ← ih]
    congr 1
    cases p <;> cases v <;> rfl

/-- The state after SCAN_WRITE n is its pin write and the sequencer's new place (R172, R173). -/
theorem State.scanned_eq {s : State} {n : Fin 50} (hm : s.block.mpc = n.succ) :
    s.scanned n =
      (s.pinWrites [seqW s.block.curSel s.block.curCol n]).atSeq
        (if n = 49 then s.block.row + 1 else s.block.row) (if n = 49 then 0 else n.succ + 1) := by
  have h50 : n.succ = 50 ↔ n = 49 := by
    constructor <;> intro h
    · have := congrArg Fin.val h
      ext
      simpa using this
    · subst h; rfl
  simp only [State.scanned, State.pinWrites_cons, State.pinWrites_nil, State.atSeq, Block.advance,
    State.pinWrite_block, Block.drive_mpc, hm, h50]
  split <;> simp

/-! ### Runs -/

theorem runSteps_add {j : Nat} (k : Nat) {s t : State} (h : runSteps j s = .next t) :
    runSteps (j + k) s = runSteps k t := by
  induction j generalizing s with
  | zero => simp only [runSteps, Host.Outcome.next.injEq] at h; subst h; simp
  | succ j ih =>
    rw [Nat.succ_add]
    simp only [runSteps] at h ⊢
    cases hs : step s with
    | next u => rw [hs] at h; exact ih h
    | fault r => cases r
    | refused r => rw [hs] at h; cases h

/-- With nothing from the HOST, an enabled engine takes every step (R170). -/
theorem step_engineAlone {s : State} (ha : EngineAlone s) (hc : s.block.constructed = true)
    (he : s.block.engActive = true) : step s = exec s.block.scanOp s := by
  have ht : TurnIs s .engine s := ⟨ha.1, .inr (.inl ⟨by simp [ha.2.1, ha.2.2.1, ha.2.2.2], ⟨hc, he⟩, rfl, rfl⟩)⟩
  simp [step, fetch_of_turn ht, fetchTurn, fetchEngine]

/-- With nothing from the HOST, an engine inside a row performs its next pin write. -/
theorem step_engineAlone_write {s : State} (ha : EngineAlone s) (hc : s.block.constructed = true)
    (he : s.block.engActive = true) {n : Fin 50} (hm : s.block.mpc = n.succ) : step s = .next (s.scanned n) := by
  rw [step_engineAlone ha hc he, ← exec_scanWrite_ok hc he hm]
  congr 1
  obtain ⟨h0, -⟩ | ⟨k, hk, ho⟩ := s.block.scanOp_cases
  · rw [hm] at h0; exact absurd h0 (Fin.succ_ne_zero n)
  · rw [ho, Fin.succ_injective _ (hm.symm.trans hk)]

/-- With nothing from the HOST, an active engine that no cancel request stops goes on. -/
theorem step_engineAlone_next {s : State} (ha : EngineAlone s) (hc : s.block.constructed = true)
    (he : s.block.engActive = true) (hx : s.block.cancel = false) :
    ∃ t, step s = .next t ∧ EngineAlone t ∧ t.block.constructed = true ∧ t.block.engActive = true ∧
      t.block.cancel = false := by
  obtain ⟨hm, ho⟩ | ⟨n, hm, -⟩ := s.block.scanOp_cases
  · refine ⟨_, by rw [step_engineAlone ha hc he, ho, exec_scanPoll_start hc he hm (.inr hx)], ?_⟩
    exact ⟨ha, hc, he, hx⟩
  · refine ⟨_, step_engineAlone_write ha hc he hm, ?_⟩
    simp [State.scanned, EngineAlone, ha.1, ha.2, hc, he, hx]

/-- Pin writes and a move of the sequencer give the HOST nothing to do. -/
theorem EngineAlone.afterWrites {s : State} (ha : EngineAlone s) (l : List (Pin × Level)) (r : Row) (m : Fin 51) :
    EngineAlone ((s.pinWrites l).atSeq r m) := by
  simpa [EngineAlone, State.atSeq] using ha

/-- An engine alone inside a row, at write m, performs the next j writes in j steps, if that is not the last. -/
theorem runSteps_writes (j : Nat) :
    ∀ (m : Nat) (s : State), m + j ≤ 49 → s.block.mpc.val = m + 1 → EngineAlone s →
      s.block.constructed = true → s.block.engActive = true →
      ∃ h : m + 1 + j < 51,
        runSteps j s =
          .next ((s.pinWrites (((rowWrites s.block.curSel s.block.curCol).drop m).take j)).atSeq s.block.row
            ⟨m + 1 + j, h⟩) := by
  induction j with
  | zero =>
    intro m s _ hm _ _ _
    refine ⟨by omega, ?_⟩
    have : s.block.mpc = ⟨m + 1 + 0, by omega⟩ := by ext; simpa using hm
    simp only [runSteps, List.take_zero, State.pinWrites_nil, ← this]
    rfl
  | succ j ih =>
    intro m s hj hm ha hc he
    refine ⟨by omega, ?_⟩
    obtain ⟨n, rfl⟩ : ∃ n : Fin 50, m = n.val := ⟨⟨m, by omega⟩, rfl⟩
    have hm' : s.block.mpc = n.succ := by ext; simpa using hm
    have hn : n ≠ 49 := by intro e; subst e; simp at hj
    have hst := step_engineAlone_write ha hc he hm'
    rw [State.scanned_eq hm', if_neg hn, if_neg hn] at hst
    have hv : (n.succ + 1 : Fin 51).val = n.val + 1 + 1 := by
      rw [Fin.val_add]; simp; omega
    obtain ⟨h', hr⟩ := ih (n.val + 1) _ (by omega) hv
      (ha.afterWrites [seqW s.block.curSel s.block.curCol n] s.block.row (n.succ + 1))
      (by simpa [State.atSeq] using hc) (by simpa [State.atSeq] using he)
    simp only [runSteps, hst, hr]
    rw [rowWrites_drop, List.take_succ_cons, ← List.singleton_append, State.pinWrites_append,
      State.atSeq_pinWrites]
    simp [State.atSeq]
    omega

/-- An engine alone inside a row, at write m, completes the row in 50 - m steps and stands at the next one. -/
theorem runSteps_rest {m : Nat} {s : State} (hl : m ≤ 49) (hm : s.block.mpc.val = m + 1) (ha : EngineAlone s)
    (hc : s.block.constructed = true) (he : s.block.engActive = true) :
    runSteps (50 - m) s =
      .next ((s.pinWrites ((rowWrites s.block.curSel s.block.curCol).drop m)).atSeq (s.block.row + 1) 0) := by
  obtain ⟨h, hr⟩ := runSteps_writes (49 - m) m s (by omega) hm ha hc he
  have h50 : (⟨m + 1 + (49 - m), h⟩ : Fin 51) = (49 : Fin 50).succ := by ext; simp; omega
  rw [h50] at hr
  rw [show 50 - m = (49 - m) + 1 by omega, runSteps_add _ hr]
  have hst := step_engineAlone_write (n := 49)
    (ha.afterWrites (((rowWrites s.block.curSel s.block.curCol).drop m).take (49 - m)) s.block.row (49 : Fin 50).succ)
    (by simpa [State.atSeq] using hc) (by simpa [State.atSeq] using he) rfl
  rw [State.scanned_eq rfl] at hst
  simp only [runSteps, hst]
  congr 1
  have hsplit : (rowWrites s.block.curSel s.block.curCol).drop m =
      ((rowWrites s.block.curSel s.block.curCol).drop m).take (49 - m) ++
        [seqW s.block.curSel s.block.curCol 49] := by
    have h1 := List.take_append_drop (49 - m) ((rowWrites s.block.curSel s.block.curCol).drop m)
    have h2 : (rowWrites s.block.curSel s.block.curCol).drop ((49 : Fin 50).val + 1) = [] :=
      List.drop_of_length_le (by simp)
    rw [List.drop_drop, show m + (49 - m) = (49 : Fin 50).val by simp; omega, rowWrites_drop, h2] at h1
    exact h1.symm
  conv_rhs => rw [hsplit, State.pinWrites_append]
  rw [State.atSeq_pinWrites]
  simp [State.atSeq]

end Sys2Proof.Machine
end

