-- ==== Sys2Proof/Tests/Slice0.lean ====
section
/-! SUPPORT. Tests of one step each, their results taken from the spec's tables, rules and vectors
(95_test_vectors.md), and for every statement with hypotheses a state and operands that meet them. -/

namespace Sys2Proof.Tests

open Sys2Proof Sys2Proof.Machine

/-! ### States to test on -/

/-- Right after `CONSTRUCT 1, 2, 3` (10_state.md R36). -/
def fresh : State := { State.reset with block := Block.afterConstruct 1 2 3 }

/-- SCANNING at (row, mpc), every row of the buffer the byte `v`, the frame in flight that row's. -/
def scanning (row : Row) (mpc : Fin 51) (v : Byte) : State :=
  { fresh with
    block := { fresh.block with
      buf := Vector.replicate 8 v
      scanState := .scanning
      engActive := true
      row := row
      mpc := mpc
      curSel := 1#8 <<< row.toNat
      curCol := v } }

/-- DRAINING at (row, mpc). -/
def draining (row : Row) (mpc : Fin 51) (v : Byte) : State :=
  { scanning row mpc v with block := { (scanning row mpc v).block with scanState := .idle, cancel := true } }

/-- RESTARTING at (row, mpc). -/
def restarting (row : Row) (mpc : Fin 51) (v : Byte) : State :=
  { scanning row mpc v with block := { (scanning row mpc v).block with cancel := true, restartPending := true } }

/-- `s` under these parameters. -/
def withParams (s : State) (c : CancelPoll) (b : BufferWriteMode) : State :=
  { s with params := ⟨c, b⟩ }

/-- `s` with these levels on DS, SHCP and STCP. -/
def withLevels (s : State) (ds shcp stcp : Level) : State :=
  { s with block := { s.block with lvlDs := ds, lvlShcp := shcp, lvlStcp := stcp } }

/-- The outcome is a next state that passes `p`. -/
def nextIs (o : Host.Outcome State Fault Refusal) (p : State → Bool) : Bool :=
  match o with
  | .next t => p t
  | .fault _ => false
  | .refused _ => false

/-- The cells of a flat image that is 0 but for cell `k`. -/
def oneCell (k : Nat) (w : Word) : List Word := (List.range 64).map fun i => if i = k then w else 0

/-- The levels in the order DS, SHCP, STCP. -/
def levels (s : State) : Level × Level × Level := (s.block.lvlDs, s.block.lvlShcp, s.block.lvlStcp)

/-! ### Well-formedness: 65535 payload words fit in LEN, 65536 do not (R71) -/

theorem lenFits_replicate (n : Nat) : lenFits (List.replicate n (0 : Word)) = decide (n < 65536) := by
  simp [lenFits]

theorem test_illFormed_construct : (Instr.construct (List.replicate 65536 0)).wellFormed = false :=
  lenFits_replicate 65536
theorem test_illFormed_setImageFlat : (Instr.setImageFlat (List.replicate 65536 0)).wellFormed = false :=
  lenFits_replicate 65536
theorem test_illFormed_setImagePacked : (Instr.setImagePacked (List.replicate 65536 0)).wellFormed = false :=
  lenFits_replicate 65536
theorem test_illFormed_clear : (Instr.clear (List.replicate 65536 0)).wellFormed = false :=
  lenFits_replicate 65536
theorem test_illFormed_stop : (Instr.stop (List.replicate 65536 0)).wellFormed = false :=
  lenFits_replicate 65536
theorem test_illFormed_readBuffer : (Instr.readBuffer (List.replicate 65536 0)).wellFormed = false :=
  lenFits_replicate 65536
theorem test_wellFormed_longest : (Instr.clear (List.replicate 65535 0)).wellFormed = true :=
  lenFits_replicate 65535
theorem test_wellFormed_microOps :
    [Instr.pinWrite .stcp true, .pushByte 0xFF, .latch, .presentRow 7 0xFF, .scanPoll, .scanWrite 49].all
      Instr.wellFormed = true := by decide

/-! ### Decoding: words written out from R71, R74 and R79 -/

/-- LEN 3, RSVD 0, TAG 0 (R84, V-R4). -/
theorem test_decode_construct :
    decode (.command [0b0000000000000011_000000000000_0000, 10, 11, 12]) = .ok (.construct [10, 11, 12]) := by decide
/-- LEN 2, TAG 1: a wrong length is still the command (R75). -/
theorem test_decode_setImageFlat :
    decode (.command [0b0000000000000010_000000000000_0001, 1, 0]) = .ok (.setImageFlat [1, 0]) := by decide
/-- LEN 8, TAG 2 (V-R4). -/
theorem test_decode_setImagePacked :
    decode (.command [0b0000000000001000_000000000000_0010, 1, 2, 3, 4, 5, 6, 7, 8]) =
      .ok (.setImagePacked [1, 2, 3, 4, 5, 6, 7, 8]) := by decide
/-- LEN 1, TAG 3 (V-R4). -/
theorem test_decode_clear :
    decode (.command [0b0000000000000001_000000000000_0011, 1]) = .ok (.clear [1]) := by decide
/-- LEN 0, TAG 4 (V-R4). -/
theorem test_decode_stop : decode (.command [0b0000000000000000_000000000000_0100]) = .ok (.stop []) := by decide
/-- LEN 0, TAG 5 (V-R4). -/
theorem test_decode_readBuffer :
    decode (.command [0b0000000000000000_000000000000_0101]) = .ok (.readBuffer []) := by decide
/-- Reserved 0, LVL 1, PIN 1, UTAG 8: PIN_WRITE SHCP, 1 (V-R7). -/
theorem test_decode_pinWrite :
    decode (.microOp 0b000000000_1_01_1000) = .ok (.pinWrite .shcp true) := by decide
/-- The other words of V-R7. -/
theorem test_decode_pinWrite_others :
    [0x0048, 0x0018, 0x0028, 0x0068].map (fun w => decode (.microOp w)) =
      [.ok (.pinWrite .ds true), .ok (.pinWrite .shcp false), .ok (.pinWrite .stcp false),
        .ok (.pinWrite .stcp true)] := by decide
/-- BYTE 0xA5, reserved 0, UTAG 9 (V-R8). -/
theorem test_decode_pushByte : decode (.microOp 0b10100101_0000_1001) = .ok (.pushByte 0xA5) := by decide
/-- UTAG A (V-R8). -/
theorem test_decode_latch : decode (.microOp 0b000000000000_1010) = .ok .latch := by decide
/-- BYTE 0x81, reserved 0, ROW 7, UTAG B (V-R8). -/
theorem test_decode_presentRow :
    decode (.microOp 0b10000001_0_111_1011) = .ok (.presentRow 7 0x81) := by decide
/-- UTAG C (V-R8). -/
theorem test_decode_scanPoll : decode (.microOp 0b000000000000_1100) = .ok .scanPoll := by decide
/-- N 49, reserved 0, UTAG D (V-R8). -/
theorem test_decode_scanWrite : decode (.microOp 0b00110001_0000_1101) = .ok (.scanWrite 49) := by decide

/-- The reserved micro-operation words (R80): a free UTAG, PIN 3, N 50, a reserved bit. -/
theorem test_decode_reserved_microOps :
    [0x0000, 0x0007, 0x000E, 0x000F, 0x0038, 0x0088, 0x0019, 0x001A, 0x008B, 0x001C, 0x320D, 0x001D].all
      (fun w => decode (.microOp w) == .error .reservedMicroOp) = true := by decide
/-- V-E15 to V-E19, and a count that differs from LEN (R72). -/
theorem test_decode_reserved_headers :
    [[0x00000006], [0x0000000C], [0x00000017], [0x00000014], [0x00010004], [0x00000004, 0], []].map
        (fun ws => decode (.command ws)) =
      [.error .reservedTag, .error .reservedTag, .error .reservedTag, .error .reservedBits, .error .transport,
        .error .transport, .error .transport] := by decide
/-- Opcode-table words: a command's payload, and micro-operations on 16 bits. -/
theorem test_decodeTableWord :
    decodeTableWord 32 0x00010003 = some (.clear [0]) ∧
      decodeTableWord 64 0x00000001_00010003 = some (.clear [1]) ∧
      decodeTableWord 16 0x310D = some (.scanWrite 49) ∧ decodeTableWord 16 0x0038 = none := by decide

/-! ### Operand assembly -/

/-- V-R1. -/
theorem test_selector :
    ([0, 1, 2, 3, 4, 5, 6, 7] : List Row).map selector = [0x01, 0x02, 0x04, 0x08, 0x10, 0x20, 0x40, 0x80] := by decide
/-- V-R2, V-R3. -/
theorem test_isOn :
    ([1, 0, 2, 0xFFFFFFFF, 0x80000001, 0x00000101] : List Word).map isOn = [true, false, false, false, false, false] ∧
      ([1, 0, 2, 0xFFFFFFFF] : List Word).map fillByte = [0xFF, 0x00, 0x00, 0x00] := by decide
/-- V-R9. -/
theorem test_seqW :
    ([0, 1, 2, 3, 21, 23, 24, 47, 48, 49] : List (Fin 50)).map (seqW 0x01 0xFF) =
      [(.ds, false), (.shcp, false), (.shcp, true), (.ds, false), (.ds, true), (.shcp, true), (.ds, true),
        (.shcp, true), (.stcp, false), (.stcp, true)] := by decide

/-! ### Producer commands, one step each -/

/-- V-I2. -/
theorem test_construct :
    nextIs (exec (.construct [10, 11, 12]) State.reset) (fun t =>
      t.block == Block.afterConstruct 10 11 12 && t.outputs == [[0]]) = true := by decide
/-- V-E13, V-E23: on an unconstructed block, equal pins and a wrong length. -/
theorem test_construct_rejected :
    nextIs (exec (.construct [5, 5, 6]) State.reset) (fun t => t.block == State.reset.block && t.outputs == [[2]]) = true ∧
      nextIs (exec (.construct [5, 6]) State.reset) (fun t => t.outputs == [[2]]) = true := by decide
/-- V-F1, V-F2, V-F3, V-F4: the index is i*8 + j. -/
theorem test_setImageFlat_bits :
    [(0, #v[0x01, 0, 0, 0, 0, 0, 0, 0]), (7, #v[0x80, 0, 0, 0, 0, 0, 0, 0]), (8, #v[0, 0x01, 0, 0, 0, 0, 0, 0]),
        (63, #v[0, 0, 0, 0, 0, 0, 0, 0x80])].all (fun (k, rows) =>
      nextIs (exec (.setImageFlat (oneCell k 1)) fresh) fun t =>
        t.block.buf == rows && t.block.lifecycle == some .scanning) = true := by decide
/-- V-F5, V-F6: 2 and -1 are off. -/
theorem test_setImageFlat_off :
    [2, 0xFFFFFFFF].all (fun w =>
      nextIs (exec (.setImageFlat (oneCell 5 w)) fresh) fun t => t.block.buf == fresh.block.buf) = true := by decide
/-- V-D5: an image while SCANNING replaces the buffer and leaves the row in flight alone. -/
theorem test_setImagePacked_scanning :
    nextIs (exec (.setImagePacked [0xFF, 0, 0, 0, 0, 0, 0, 0]) (scanning 4 17 0x11)) (fun t =>
      t.block == { (scanning 4 17 0x11).block with buf := #v[0xFF, 0, 0, 0, 0, 0, 0, 0] }) = true := by decide
/-- V-E9, V-E10: a word that is no byte, and the length first. -/
theorem test_setImagePacked_errors :
    nextIs (exec (.setImagePacked [0, 0, 0, 0x100, 0, 0, 0, 0]) fresh) (fun t => t.outputs == [[2]]) = true ∧
      nextIs (exec (.setImagePacked [0, 0, 0, 0x100, 0, 0, 0]) fresh) (fun t => t.outputs == [[1]]) = true := by decide
/-- V-D1, V-D3: CLEAR does not start a scan, nor stop one. -/
theorem test_clear_lifecycle :
    nextIs (exec (.clear [1]) fresh) (fun t =>
      t.block.buf == Vector.replicate 8 0xFF && t.block.lifecycle == some .quiet) = true ∧
    nextIs (exec (.clear [1]) (scanning 3 9 0)) (fun t =>
      t.block.buf == Vector.replicate 8 0xFF && t.block.lifecycle == some .scanning) = true := by decide
/-- V-D2, V-E20. -/
theorem test_clear_values :
    [0, 2, 0xFFFFFFFF].all (fun w =>
      nextIs (exec (.clear [w]) (scanning 0 0 0x55)) fun t => t.block.buf == Vector.replicate 8 0x00) = true ∧
    nextIs (exec (.clear []) fresh) (fun t => t.block == fresh.block && t.outputs == [[2]]) = true := by decide
/-- V-D6, V-D7: STOP of a scan and of a pending restart. -/
theorem test_stop_scanning :
    nextIs (exec (.stop []) (scanning 5 20 0)) (fun t => t.block.lifecycle == some .draining) = true ∧
      nextIs (exec (.stop []) (restarting 5 20 0)) (fun t => t.block.lifecycle == some .draining) = true := by decide
/-- V-D9, V-D10: no change. -/
theorem test_stop_idle :
    nextIs (exec (.stop []) fresh) (fun t => t.block == fresh.block && t.outputs == [[0]]) = true ∧
      nextIs (exec (.stop []) (draining 5 20 0)) (fun t => t.block == (draining 5 20 0).block) = true := by decide
/-- V-F8's answer, row 0 first. -/
theorem test_readBuffer :
    nextIs (exec (.readBuffer []) { fresh with block := { fresh.block with buf := #v[1, 2, 3, 4, 5, 6, 7, 8] } })
      (fun t => t.outputs == [[0, 1, 2, 3, 4, 5, 6, 7, 8]]) = true := by decide

/-! ### Link operations, one step each -/

/-- V-L7: an event without a change of level. -/
theorem test_pinWrite_same_level :
    nextIs (exec (.pinWrite .shcp false) (withLevels fresh true false true)) (fun t =>
      t.block.trace == [(.shcp, false)] && levels t == (true, false, true)) = true := by decide
/-- R220: SHCP 0 to 1 shifts DS in; SHCP already 1 shifts nothing. -/
theorem test_pinWrite_shift :
    nextIs (exec (.pinWrite .shcp true) (withLevels fresh true false false)) (fun t => t.cascade.sr == 1) = true ∧
      nextIs (exec (.pinWrite .shcp true) (withLevels fresh true true false)) (fun t => t.cascade.sr == 0) = true := by
  decide
/-- V-L1: the levels, and the DS writes of 0xA5. -/
theorem test_pushByte :
    nextIs (exec (.pushByte 0xA5) fresh) (fun t =>
      (t.block.trace.filter fun e => e.1 == .ds).map Prod.snd ==
          [true, false, true, false, false, true, false, true] &&
        t.block.trace.length == 24 && levels t == (true, true, false)) = true := by decide
/-- V-L6. -/
theorem test_latch :
    nextIs (exec .latch fresh) (fun t =>
      t.block.trace == [(.stcp, false), (.stcp, true)] && levels t == (false, false, true)) = true := by decide
/-- V-L4. -/
theorem test_presentRow_first :
    nextIs (exec (.presentRow 0 0xFF) fresh) (fun t =>
      t.cascade.q == 0x01FF && t.block.trace.length == 50 && levels t == (true, true, true)) = true := by decide
/-- V-L5. -/
theorem test_presentRow_last :
    nextIs (exec (.presentRow 7 0x81) (withLevels fresh true true true)) (fun t =>
      t.cascade.q == 0x8081 && t.block.trace.length == 50 && levels t == (true, true, true)) = true := by decide

/-! ### The scan engine, one step each -/

/-- V-S1. -/
theorem test_scanPoll_captures :
    nextIs (exec .scanPoll (scanning 3 0 0x5A)) (fun t =>
      t.block.curSel == 0x08 && t.block.curCol == 0x5A && t.block.mpc == 1 && t.block.trace == []) = true := by decide
/-- V-S7; and the restart of V-S5's last step. -/
theorem test_scanPoll_cancel :
    nextIs (exec .scanPoll (draining 5 0 0)) (fun t => t.block.lifecycle == some .quiet && t.block.row == 0) = true ∧
      nextIs (exec .scanPoll (restarting 2 0 0)) (fun t =>
        t.block.lifecycle == some .scanning && t.block.row == 0 && t.block.mpc == 0) = true := by decide
/-- V-S2: the wrap. -/
theorem test_scanWrite_wraps :
    nextIs (exec (.scanWrite 49) (scanning 7 50 0x5A)) (fun t =>
      t.block.trace == [(.stcp, true)] && t.block.row == 0 && t.block.mpc == 0) = true := by decide
/-- R81: write 21 of row 0 is the selector's bit 0. -/
theorem test_scanWrite_middle :
    nextIs (exec (.scanWrite 21) (scanning 0 22 0)) (fun t =>
      t.block.trace == [(.ds, true)] && t.block.row == 0 && t.block.mpc == 23) = true := by decide

/-! ### Steps -/

/-- V-E19: reserved bits before everything else, on an unconstructed block. -/
theorem test_step_rejects_header :
    nextIs (step { State.reset with inputs := [.command [0x00000014]] }) (fun t =>
      t.outputs == [[2]] && t.inputs == [] && t.block == State.reset.block) = true := by decide
/-- V-S15. -/
theorem test_step_quiet : nextIs (step fresh) (fun t => t == fresh) = true := by decide
/-- V-W1's first sub-step: with pick 0, row 0 is written and the engine may move next. -/
theorem test_perRow_first_substep :
    nextIs (exec (.setImagePacked [255, 255, 255, 255, 255, 255, 255, 255])
        { withParams (scanning 0 0 0) .perRow .perRow with picks := [0] }) (fun t =>
      t.block.buf == #v[0xFF, 0, 0, 0, 0, 0, 0, 0] && t.outputs == [] && t.busy.isSome) = true := by decide
/-- R224: a loss of power inside a replacement, and after one more of its sub-steps (row 3, then power). -/
theorem test_power_inside_replacement :
    nextIs (step { fresh with busy := some ⟨Vector.replicate 8 0xFF, [3, 6], true⟩, inputs := [.powerCycle 0] }) (fun t =>
      t.block == Block.powerUp && t.busy == none && t.outputs == [] && t.inputs == []) = true ∧
    nextIs (step { fresh with
        busy := some ⟨Vector.replicate 8 0xFF, [3, 6], true⟩, inputs := [.powerCycle 1], picks := [0] }) (fun t =>
      t.block.buf == #v[0, 0, 0, 0xFF, 0, 0, 0, 0] && t.busy.isSome && t.inputs == [.powerCycle 0]) = true := by decide
/-- A word of each format, placed at reset, is run by the next step. -/
theorem test_placed_words :
    nextIs (step (State.reset.withFetchWord 32 0x00030000)) (fun t => t.outputs == [[2]]) = true ∧
      nextIs (step (State.reset.withFetchWord 16 0x0058)) (fun t => t.block.trace == [(.shcp, true)]) = true ∧
      nextIs (step (State.reset.withFetchWord 16 0x310D)) (fun t => t.block.trace == [(.stcp, true)]) = true := by
  decide

/-! ### Witnesses: for each statement with hypotheses, operands and a state that meet them -/

theorem test_witness_DecodeOfEncode :
    (Instr.clear (List.replicate 65535 0)).wellFormed = true ∧ (Instr.scanWrite 49).wellFormed = true :=
  ⟨lenFits_replicate 65535, rfl⟩

theorem test_witness_EncodeOfDecode :
    decode (.command [0x00000005]) = .ok (.readBuffer []) ∧ decode (.microOp 0x310D) = .ok (.scanWrite 49) := by
  decide

/-- One word for each clause. -/
theorem test_witness_ReservedMicroOpRefused :
    ({ fresh with uop := some 0x0038 } : State).uop = some 0x0038#16 ∧
      ((0x0007#16).toNat % 16 < 8 ∧ 14 ≤ (0x000E#16).toNat % 16) ∧
      ((0x0038#16).toNat % 16 = 8 ∧ (0x0038#16).toNat / 16 % 4 = 3) ∧
      ((0x0088#16).toNat % 16 = 8 ∧ (0x0088#16).toNat / 128 ≠ 0) ∧
      ((0x0019#16).toNat % 16 = 9 ∧ (0x0019#16).toNat / 16 % 16 ≠ 0) ∧
      ((0x001A#16).toNat % 16 = 10 ∧ (0x001A#16).toNat / 16 ≠ 0) ∧
      ((0x008B#16).toNat % 16 = 11 ∧ (0x008B#16).toNat / 128 % 2 ≠ 0) ∧
      ((0x001C#16).toNat % 16 = 12 ∧ (0x001C#16).toNat / 16 ≠ 0) ∧
      ((0x001D#16).toNat % 16 = 13 ∧ (0x001D#16).toNat / 16 % 16 ≠ 0) ∧
      ((0x320D#16).toNat % 16 = 13 ∧ 50 ≤ (0x320D#16).toNat / 256) := by decide

theorem test_witness_ConstructResetsBlock :
    State.reset.busy = none ∧ State.reset.block.constructed = false ∧ (10 : Word) ≠ 11 ∧ (10 : Word) ≠ 12 ∧
      (11 : Word) ≠ 12 := by decide

/-- Each clause: constructed, a wrong length, two equal pins in each of the three places. -/
theorem test_witness_ConstructRejected :
    fresh.busy = none ∧ fresh.block.constructed = true ∧ ([5, 6] : List Word).length ≠ 3 ∧
      (∃ ds stcp shcp : Word, [5, 5, 6] = [ds, stcp, shcp] ∧ ds = stcp) ∧
      (∃ ds stcp shcp : Word, [5, 6, 5] = [ds, stcp, shcp] ∧ ds = shcp) ∧
      (∃ ds stcp shcp : Word, [6, 5, 5] = [ds, stcp, shcp] ∧ stcp = shcp) :=
  ⟨rfl, rfl, by decide, ⟨5, 5, 6, rfl, rfl⟩, ⟨5, 6, 5, rfl, rfl⟩, ⟨6, 5, 5, rfl, rfl⟩⟩

theorem test_witness_SetImageFlatReplacesImage :
    fresh.busy = none ∧ fresh.params.bufferWriteMode = .atomic ∧ fresh.block.constructed = true ∧
      (oneCell 63 1).length = 64 := by decide

theorem test_witness_SetImagePackedReplacesImage :
    fresh.busy = none ∧ fresh.params.bufferWriteMode = .atomic ∧ fresh.block.constructed = true ∧
      ([0, 1, 2, 3, 4, 5, 6, 255] : List Word).length = 8 ∧
      ∀ w ∈ ([0, 1, 2, 3, 4, 5, 6, 255] : List Word), w.toNat < 256 :=
  ⟨rfl, rfl, rfl, rfl, by simp⟩

theorem test_witness_ClearFillsImage :
    fresh.busy = none ∧ fresh.params.bufferWriteMode = .atomic ∧ fresh.block.constructed = true := by decide

/-- Each clause: a scanning and an idle block. -/
theorem test_witness_StopRequestsCancel :
    (scanning 5 20 0).busy = none ∧ (scanning 5 20 0).block.constructed = true ∧
      (scanning 5 20 0).block.scanState = .scanning ∧ (draining 5 20 0).busy = none ∧
      (draining 5 20 0).block.constructed = true ∧ (draining 5 20 0).block.scanState = .idle := by decide

theorem test_witness_ReadBufferAnswersRows :
    fresh.busy = none ∧ fresh.block.constructed = true := by decide

/-- The first part at the lengths next to the right ones (V-E1, V-E2, V-E5, V-E6), the second at V-E1. -/
theorem test_witness_WrongImageLengthIsInvalidSize :
    fresh.busy = none ∧ fresh.block.constructed = true ∧ (List.replicate 63 (0 : Word)).length ≠ 64 ∧
      (List.replicate 65 (0 : Word)).length ≠ 64 ∧ (List.replicate 7 (0 : Word)).length ≠ 8 ∧
      (List.replicate 9 (0 : Word)).length ≠ 8 ∧
      ∃ t, exec (.setImageFlat (List.replicate 63 0)) fresh = .next t ∧ t.outputs = fresh.outputs ++ [1 :: []] :=
  ⟨rfl, rfl, by decide, by decide, by decide, by decide, _, rfl, rfl⟩

/-- Each clause: not constructed; constructed with a wrong length; a packed word that is no byte. -/
theorem test_witness_RejectedCommandsChangeNothing :
    State.reset.busy = none ∧ State.reset.block.constructed = false ∧ fresh.busy = none ∧
      fresh.block.constructed = true ∧ ([] : List Word).length ≠ 1 ∧ ([0] : List Word).length ≠ 0 ∧
      ([0, 0, 0, 0, 0, 0, 0, 256] : List Word).length = 8 ∧
      ∃ w ∈ ([0, 0, 0, 0, 0, 0, 0, 256] : List Word), 256 ≤ w.toNat :=
  ⟨rfl, rfl, rfl, rfl, by decide, by decide, rfl, 256, by simp, by decide⟩

/-- A constructed block in per_row mode whose next pick is listed. -/
def perRowState : State := { withParams fresh .perRow .perRow with picks := [7, 0] }

theorem test_witness_pick_listed : PickIs perRowState 7 { perRowState with picks := [0] } := .inl ⟨[0], rfl, rfl⟩

theorem test_witness_pick_free :
    PickIs (withParams fresh .perRow .perRow) (Config.rowPick 0)
      { withParams fresh .perRow .perRow with drawn := 1 } := .inr ⟨rfl, rfl, rfl⟩

theorem test_witness_PerRowFirstSubStep :
    perRowState.busy = none ∧ perRowState.params.bufferWriteMode = .perRow ∧
      perRowState.block.constructed = true ∧ PickIs perRowState 7 { perRowState with picks := [0] } ∧
      (oneCell 0 1).length = 64 ∧ ([0, 1, 2, 3, 4, 5, 6, 255] : List Word).length = 8 ∧
      (∀ w ∈ ([0, 1, 2, 3, 4, 5, 6, 255] : List Word), w.toNat < 256) ∧ ∃ w : Word, [1] = [w] :=
  ⟨rfl, rfl, rfl, test_witness_pick_listed, by decide, rfl, by simp, 1, rfl⟩

theorem test_goodImage_flat : GoodImage (.setImageFlat (oneCell 0 1)) := .inl ⟨_, rfl, by decide⟩

theorem test_goodImage_packed : GoodImage (.setImagePacked [0, 1, 2, 3, 4, 5, 6, 255]) :=
  .inr ⟨_, rfl, rfl, by simp⟩

/-- A scanning block in per_row mode, the next eight contested steps the HOST's, power lost soon after. -/
def hostsTurns : State :=
  { withParams (scanning 2 5 0x81) .perRow .perRow with
    turns := List.replicate 8 .host
    inputs := [.powerCycle 8] }

/-- With no engine and nothing from the HOST; and with an active engine, the turns listed to the HOST. -/
theorem test_witness_PerRowEndsAsAtomic :
    GoodImage (.setImagePacked [0, 1, 2, 3, 4, 5, 6, 255]) ∧
    (perRowState.uop = none ∧ perRowState.busy = none ∧
      perRowState.block.constructed = true ∧ perRowState.block.engActive = false ∧ perRowState.endless = false ∧
      perRowState.inputs = [] ∧ perRowState.params.bufferWriteMode = .perRow ∧
      ∃ t, exec (.setImagePacked [0, 1, 2, 3, 4, 5, 6, 255])
        { perRowState with params := { perRowState.params with bufferWriteMode := .atomic } } = .next t) ∧
    (hostsTurns.uop = none ∧ hostsTurns.busy = none ∧ hostsTurns.block.constructed = true ∧
      hostsTurns.block.engActive = true ∧ hostsTurns.turns = List.replicate 8 .host ++ [] ∧
      hostsTurns.inputs = .powerCycle (0 + 8) :: [] ∧ 8 ≤ 0 + 8 ∧ hostsTurns.params.bufferWriteMode = .perRow ∧
      ∃ t, exec (.setImagePacked [0, 1, 2, 3, 4, 5, 6, 255])
        { hostsTurns with params := { hostsTurns.params with bufferWriteMode := .atomic } } = .next t) :=
  ⟨test_goodImage_packed, ⟨rfl, rfl, rfl, rfl, rfl, rfl, rfl, _, rfl⟩,
    rfl, rfl, rfl, rfl, rfl, rfl, by decide, rfl, _, rfl⟩

/-- A replacement under way, with rows left and with none. -/
def halfDone (left : List Row) : State :=
  { perRowState with busy := some ⟨Vector.replicate 8 0xFF, left, true⟩ }

theorem test_witness_NoCommandOverlapsReplacement :
    (halfDone [3]).busy = some ⟨Vector.replicate 8 0xFF, [3], true⟩ := by decide

theorem test_witness_PresentRowIsSeqW : (0x80 : Byte).toNat = 2 ^ (7 : Row).toNat := by decide

theorem test_witness_PresentRowPulseCounts : ∃ t, exec (.presentRow 7 0x81) fresh = .next t := ⟨_, rfl⟩

/-- Both ends of the range of k. -/
theorem test_witness_OutputsShowLatchedFrame : (0 : Nat) ≤ 49 ∧ (49 : Nat) ≤ 49 := by decide

/-- Each clause: nothing to cancel; a cancel request at a boundary that does not test it. -/
theorem test_witness_ScanPollCapturesRow :
    (let s := scanning 3 0 0x5A;
      s.block.constructed = true ∧ s.block.engActive = true ∧ s.block.mpc = 0 ∧ s.block.cancel = false) ∧
    (let s := withParams (draining 7 0 0x5A) .perCycle .atomic;
      s.block.constructed = true ∧ s.block.engActive = true ∧ s.block.mpc = 0 ∧ s.params.cancelPoll = .perCycle ∧
        s.block.row ≠ 0) := by decide

/-- Each clause: per_row at any row; per_cycle at row 0. -/
theorem test_witness_ScanPollHonoursCancel :
    (let s := draining 5 0 0;
      s.block.constructed = true ∧ s.block.engActive = true ∧ s.block.mpc = 0 ∧ s.block.cancel = true ∧
        s.params.cancelPoll = .perRow) ∧
    (let s := withParams (restarting 0 0 0) .perCycle .atomic;
      s.block.constructed = true ∧ s.block.engActive = true ∧ s.block.mpc = 0 ∧ s.block.cancel = true ∧
        s.block.row = 0) := by decide

/-- The first write, the last but one, and the last. -/
theorem test_witness_ScanWriteAdvances :
    (scanning 7 50 0).block.constructed = true ∧ (scanning 7 50 0).block.engActive = true ∧
      (scanning 0 1 0).block.mpc.val = (0 : Fin 50).val + 1 ∧
      (scanning 7 49 0).block.mpc.val = (48 : Fin 50).val + 1 ∧
      (scanning 7 50 0).block.mpc.val = (49 : Fin 50).val + 1 := by decide

theorem test_witness_ScanOpsOnlyInSequence :
    State.reset.block.constructed = false ∧ fresh.block.engActive = false ∧
      (scanning 0 1 0).block.constructed = true ∧ (scanning 0 1 0).block.engActive = true ∧
      (scanning 0 1 0).block.mpc ≠ 0 ∧ (scanning 0 1 0).block.mpc.val ≠ (1 : Fin 50).val + 1 := by decide

/-! #### Whose turn it is: the HOST alone, the ENGINE alone, and both with the turn listed or free -/

theorem turn_host_alone {s : State} (hu : s.uop = none) (hh : s.busy ≠ none ∨ s.inputs ≠ [] ∨ s.endless = true)
    (he : s.block.engActive = false) : TurnIs s .host s :=
  ⟨hu, .inl ⟨hh, fun h => by simp [he] at h, rfl, rfl⟩⟩

/-- A HOST step with the engine not active and an input listed, or none to come. -/
theorem hostTurn_alone {s : State} (hu : s.uop = none) (hh : s.busy ≠ none ∨ s.inputs ≠ [])
    (hl : s.inputs ≠ [] ∨ s.endless = false) (he : s.block.engActive = false) : HostTurnIs s s :=
  ⟨s, turn_host_alone hu (hh.imp_right .inl) he, .inl ⟨hl, rfl⟩⟩

/-- A scanning block with a command waiting. -/
def contested (turns : List Agent) : State :=
  { scanning 2 5 0x81 with inputs := [.command [0x00000004]], turns := turns }

theorem test_turn_host_alone :
    TurnIs { fresh with inputs := [.command [0x00000005]] } .host { fresh with inputs := [.command [0x00000005]] } :=
  turn_host_alone rfl (.inr (.inl (by simp))) rfl

theorem test_turn_engine_alone : TurnIs (scanning 2 5 0x81) .engine (scanning 2 5 0x81) :=
  ⟨rfl, .inr (.inl ⟨by decide, by decide, rfl, rfl⟩)⟩

theorem test_turn_listed_host : TurnIs (contested [.host, .engine]) .host (contested [.engine]) :=
  ⟨rfl, .inr (.inr (.inl ⟨.inr (.inl (by simp [contested])), by decide, [.engine], rfl, rfl⟩))⟩

theorem test_turn_listed_engine : TurnIs (contested [.engine]) .engine (contested []) :=
  ⟨rfl, .inr (.inr (.inl ⟨.inr (.inl (by simp [contested])), by decide, [], rfl, rfl⟩))⟩

/-- With no turn listed: as many steps of the HOST as the free value says, then the ENGINE's. -/
theorem test_turn_free :
    (∀ m, Config.hostSteps 0 = m + 1 →
      TurnIs (contested []) .host { contested [] with drawn := 1, engineWait := some m }) ∧
    (Config.hostSteps 0 = 0 → TurnIs (contested []) .engine { contested [] with drawn := 1 }) ∧
    TurnIs { contested [] with engineWait := some 1 } .host { contested [] with engineWait := some 0 } ∧
    TurnIs { contested [] with engineWait := some 0 } .engine (contested []) := by
  have free : ∀ {s s' : State} {a : Agent} (n : Nat) (s₁ : State), s.uop = none → s.inputs ≠ [] →
      (s.block.constructed = true ∧ s.block.engActive = true) → s.turns = [] → WaitIs s n s₁ →
      ((n = 0 ∧ a = .engine ∧ s' = { s₁ with engineWait := none }) ∨
        ∃ m, n = m + 1 ∧ a = .host ∧ s' = { s₁ with engineWait := some m }) → TurnIs s a s' :=
    fun n s₁ hu hi he ht hw hn => ⟨hu, .inr (.inr (.inr ⟨.inr (.inl hi), he, ht, n, s₁, hw, hn⟩))⟩
  refine ⟨fun m h => ?_, fun h => ?_, ?_, ?_⟩
  · exact free (m + 1) _ rfl (by simp [contested]) (by decide) rfl (.inr ⟨rfl, h.symm, rfl⟩) (.inr ⟨m, rfl, rfl, rfl⟩)
  · exact free 0 _ rfl (by simp [contested]) (by decide) rfl (.inr ⟨rfl, h.symm, rfl⟩) (.inl ⟨rfl, rfl, rfl⟩)
  · exact free 1 _ rfl (by simp [contested]) (by decide) rfl (.inl ⟨rfl, rfl⟩) (.inr ⟨0, rfl, rfl, rfl⟩)
  · exact free 0 _ rfl (by simp [contested]) (by decide) rfl (.inl ⟨rfl, rfl⟩) (.inl ⟨rfl, rfl, rfl⟩)

/-- A HOST that goes on for ever, its next input the n-th free value. -/
def goingOn (n : Nat) : State := { fresh with endless := true, drawn := n }

/-- `goingOn n` with that input listed. -/
def goneOn (n : Nat) : State := { goingOn n with inputs := [Config.hostInput n], drawn := n + 1 }

theorem test_turn_free_input (n : Nat) : HostTurnIs (goingOn n) (goneOn n) :=
  ⟨goingOn n, turn_host_alone rfl (.inr (.inr rfl)) rfl, .inr ⟨rfl, rfl, rfl⟩⟩

/-- A listed delivery, and one of a HOST that goes on for ever, whatever command it issues. -/
theorem test_witness_StepRunsDeliveredCommand :
    (HostTurnIs (contested [.host, .engine]) (contested [.engine]) ∧ (contested [.host, .engine]).busy = none ∧
      (contested [.engine]).inputs = .command [0x00000004] :: [] ∧
      decodeCommand [0x00000004] = .ok (.stop [])) ∧
    ∀ n words, Config.hostInput n = .command words →
      HostTurnIs (goingOn n) (goneOn n) ∧ (goingOn n).busy = none ∧ (goneOn n).inputs = .command words :: [] :=
  ⟨⟨⟨_, test_turn_listed_host, .inl ⟨.inl (by simp [contested]), rfl⟩⟩, rfl, rfl, by decide⟩,
    fun n words h => ⟨test_turn_free_input n, rfl, by simp [goneOn, h]⟩⟩

/-- Both clauses: at the boundary, and at the first and the last write. -/
theorem test_witness_StepRunsEngineOp :
    TurnIs (contested [.engine]) .engine (contested []) ∧ (contested [.engine]).block.mpc.val = (4 : Fin 50).val + 1 ∧
      TurnIs (scanning 2 0 0) .engine (scanning 2 0 0) ∧ (scanning 2 0 0).block.mpc = 0 ∧
      TurnIs (scanning 7 50 0) .engine (scanning 7 50 0) ∧ (scanning 7 50 0).block.mpc.val = (49 : Fin 50).val + 1 :=
  ⟨test_turn_listed_engine, rfl, ⟨rfl, .inr (.inl ⟨by decide, by decide, rfl, rfl⟩)⟩, rfl,
    ⟨rfl, .inr (.inl ⟨by decide, by decide, rfl, rfl⟩)⟩, rfl⟩

theorem test_witness_StepRunsMicroOpWord :
    ({ fresh with uop := some 0x0058 } : State).uop = some 0x0058#16 ∧
      decodeMicroOp 0x0058 = .ok (.pinWrite .shcp true) := by decide

/-- A replacement under way, power about to be lost after `k` more sub-steps. -/
def losingPower (left : List Row) (k : Nat) : State := { halfDone left with inputs := [.powerCycle k] }

/-- Both clauses, with no loss of power to come: two rows left, the pick the second of them; and none left. And
the first with power lost after one more sub-step. -/
theorem test_witness_StepContinuesReplacement :
    (HostTurnIs (halfDone [3, 6]) (halfDone [3, 6]) ∧
      (halfDone [3, 6]).busy = some ⟨Vector.replicate 8 0xFF, [3, 6], true⟩ ∧ (halfDone [3, 6]).inputs = [] ∧
      PickIs (halfDone [3, 6]) 7 { halfDone [3, 6] with picks := [0] } ∧
      ([3, 6] : List Row)[7 % ([3, 6] : List Row).length]? = some 6) ∧
    (HostTurnIs (halfDone []) (halfDone []) ∧
      (halfDone []).busy = some ⟨Vector.replicate 8 0xFF, [], true⟩ ∧ (halfDone []).inputs = []) ∧
    (HostTurnIs (losingPower [3, 6] 1) (losingPower [3, 6] 1) ∧
      (losingPower [3, 6] 1).busy = some ⟨Vector.replicate 8 0xFF, [3, 6], true⟩ ∧
      (losingPower [3, 6] 1).inputs = .powerCycle (0 + 1) :: [] ∧
      PickIs { losingPower [3, 6] 1 with inputs := [.powerCycle 0] } 7
        { losingPower [3, 6] 1 with inputs := [.powerCycle 0], picks := [0] }) :=
  ⟨⟨hostTurn_alone rfl (.inl (by decide)) (.inr rfl) rfl, rfl, rfl, .inl ⟨[0], rfl, rfl⟩, by decide⟩,
    ⟨hostTurn_alone rfl (.inl (by decide)) (.inr rfl) rfl, rfl, rfl⟩,
    hostTurn_alone rfl (.inl (by decide)) (.inr rfl) rfl, rfl, rfl, .inl ⟨[0], rfl, rfl⟩⟩

/-- `s` with one delivery waiting. -/
def delivered (s : State) (words : List Word) : State := { s with inputs := [.command words] }

theorem hostTurn_delivered (s : State) (words : List Word) (hu : s.uop = none) (he : s.block.engActive = false) :
    HostTurnIs (delivered s words) (delivered s words) :=
  hostTurn_alone hu (.inr (by simp [delivered])) (.inl (by simp [delivered])) he

/-- A reserved TAG (V-E15) and reserved bits (V-E19), on an unconstructed block. -/
theorem test_witness_ReservedHeaderIsRejected :
    HostTurnIs (delivered State.reset [0x00000006]) (delivered State.reset [0x00000006]) ∧
      (delivered State.reset [0x00000006]).busy = none ∧
      (delivered State.reset [0x00000006]).inputs = .command (0x00000006 :: []) :: [] ∧
      ([] : List Word).length = (0x00000006#32).toNat / 65536 ∧ 6 ≤ (0x00000006#32).toNat % 16 ∧
      HostTurnIs (delivered State.reset [0x00000014]) (delivered State.reset [0x00000014]) ∧
      ([] : List Word).length = (0x00000014#32).toNat / 65536 ∧ (0x00000014#32).toNat / 16 % 4096 ≠ 0 :=
  ⟨hostTurn_delivered _ _ rfl rfl, rfl, rfl, by decide, by decide, hostTurn_delivered _ _ rfl rfl, by decide,
    by decide⟩

/-- No header at all, and a payload word too many. -/
theorem test_witness_TransportErrorRefused :
    HostTurnIs (delivered fresh []) (delivered fresh []) ∧ (delivered fresh []).busy = none ∧
      HostTurnIs (delivered fresh [0x00000004, 0]) (delivered fresh [0x00000004, 0]) ∧
      ∃ h payload, ([0x00000004, 0] : List Word) = h :: payload ∧ payload.length ≠ h.toNat / 65536 :=
  ⟨hostTurn_delivered _ _ rfl rfl, rfl, hostTurn_delivered _ _ rfl rfl, _, _, rfl, by decide⟩

/-- Both clauses: not constructed, and constructed with no engine. -/
theorem test_witness_QuiescentStepChangesNothing :
    EngineAlone State.reset ∧ State.reset.block.constructed = false ∧ EngineAlone fresh ∧
      fresh.block.engActive = false := by
  simp only [EngineAlone]
  decide

/-- Between commands, the engine active, whatever the count; and inside a replacement. -/
theorem test_witness_PowerCycleIsPowerUp :
    (HostTurnIs { contested [.host] with inputs := [.powerCycle 3] } { contested [] with inputs := [.powerCycle 3] } ∧
      ({ contested [.host] with inputs := [.powerCycle 3] } : State).busy = none) ∧
    (HostTurnIs (losingPower [3, 6] 0) (losingPower [3, 6] 0) ∧ (losingPower [3, 6] 0).busy ≠ none ∧
      (losingPower [3, 6] 0).inputs = .powerCycle 0 :: []) :=
  ⟨⟨⟨_, ⟨rfl, .inr (.inr (.inl ⟨.inr (.inl (by simp)), by decide, [], rfl, rfl⟩))⟩, .inl ⟨.inl (by simp), rfl⟩⟩, rfl⟩,
    hostTurn_alone rfl (.inl (by decide)) (.inl (by simp [losingPower])) rfl, by decide, rfl⟩

/-- A word for every arm. -/
theorem test_witness_PlacedWordRunsNext :
    [0x00030000, 0x00400001, 0x00080002, 0x00010003, 0x00000004, 0x00000005].all
        (fun w => (decodeTableWord 32 w).isSome) = true ∧
      [0x0048, 0xA509, 0x000A, 0xFF0B, 0x000C, 0x310D].all (fun w => (decodeTableWord 16 w).isSome) = true := by
  decide

/-! #### Whole-machine rules -/

theorem test_witness_CommandsNeverTouchPins : ∃ t, exec (.clear [1]) (scanning 3 9 0) = .next t := ⟨_, rfl⟩

theorem test_witness_EngineNeverWritesBuffer :
    (∃ t, exec .scanPoll (scanning 3 0 0) = .next t) ∧ ∃ t, exec (.scanWrite 8) (scanning 3 9 0) = .next t :=
  ⟨⟨_, rfl⟩, _, rfl⟩

/-- A step that writes a pin, and a step that constructs. -/
theorem test_witness_StepWritesAtMostOnePin :
    (scanning 3 9 0).uop = none ∧ (∃ t, step (scanning 3 9 0) = .next t) ∧
      ∃ t, step (delivered State.reset [0x00030000, 10, 11, 12]) = .next t :=
  ⟨rfl, ⟨_, rfl⟩, _, rfl⟩

theorem test_witness_StepAnswersAtMostOnce : ∃ t, step (delivered fresh [0x00000005]) = .next t := ⟨_, rfl⟩

theorem test_witness_StepKeepsParameters : ∃ t, step (delivered fresh [0x00000005]) = .next t := ⟨_, rfl⟩

theorem test_inv_quiet : fresh.block.Inv := by constructor <;> decide
theorem test_inv_scanning : (scanning 5 20 0).block.Inv := by constructor <;> decide
theorem test_inv_draining : (draining 5 0 0).block.Inv := by constructor <;> decide
theorem test_inv_restarting : (restarting 5 0 0).block.Inv := by constructor <;> decide

/-- The four lifecycle states meet the invariant, and the operations of every clause answer a next state. -/
theorem test_witness_LifecycleTransitions :
    fresh.block.lifecycle = some .quiet ∧ (scanning 5 20 0).block.lifecycle = some .scanning ∧
      (draining 5 0 0).block.lifecycle = some .draining ∧ (restarting 5 0 0).block.lifecycle = some .restarting ∧
      fresh.block.Inv ∧ (scanning 5 20 0).block.Inv ∧ (draining 5 0 0).block.Inv ∧ (restarting 5 0 0).block.Inv ∧
      fresh.block.constructed = true ∧ fresh.params.bufferWriteMode = .atomic ∧
      (∃ t, exec (.setImagePacked [0, 1, 2, 3, 4, 5, 6, 255]) fresh = .next t) ∧
      (∃ t, exec (.stop []) (restarting 5 0 0) = .next t) ∧ (∃ t, exec (.clear [1]) fresh = .next t) ∧
      (∃ t, exec .scanPoll (draining 5 0 0) = .next t) ∧ (∃ t, exec .scanPoll (restarting 5 0 0) = .next t) ∧
      ∃ t, exec (.scanWrite 19) (scanning 5 20 0) = .next t :=
  ⟨by decide, by decide, by decide, by decide, test_inv_quiet, test_inv_scanning, test_inv_draining,
    test_inv_restarting, rfl, rfl, ⟨_, rfl⟩, ⟨_, rfl⟩, ⟨_, rfl⟩, ⟨_, rfl⟩, ⟨_, rfl⟩, _, rfl⟩

theorem inv_scanning : (scanning 5 20 0).Inv :=
  ⟨test_inv_scanning, rfl, fun _ h => (by cases h), fun _ h => (by cases h)⟩

theorem test_witness_StepKeepsInvariant :
    (scanning 5 20 0).Inv ∧ ∃ t, step (scanning 5 20 0) = .next t := ⟨inv_scanning, _, rfl⟩

/-- A block that has just started row 0. -/
theorem test_witness_StepKeepsTraceShape :
    (scanning 0 1 0x81).Inv ∧ (scanning 0 1 0x81).block.TraceOk ∧ ∃ t, step (scanning 0 1 0x81) = .next t :=
  ⟨⟨by constructor <;> decide, rfl, fun _ h => (by cases h), fun _ h => (by cases h)⟩,
    ⟨[], by decide, rfl, by decide⟩, _, rfl⟩

/-! #### Runs -/

theorem alone (s : State) (hu : s.uop = none) (hb : s.busy = none) (hi : s.inputs = []) (he : s.endless = false) :
    EngineAlone s := ⟨hu, hb, hi, he⟩

/-- Both clauses. -/
theorem test_witness_EngineRowIsPresentRow :
    (EngineAlone (scanning 7 0 0x81) ∧ (scanning 7 0 0x81).block.constructed = true ∧
      (scanning 7 0 0x81).block.engActive = true ∧ (scanning 7 0 0x81).block.mpc = 0 ∧
      (scanning 7 0 0x81).block.cancel = false) ∧
    (let s := withParams (draining 7 0 0x81) .perCycle .atomic;
      EngineAlone s ∧ s.block.constructed = true ∧ s.block.engActive = true ∧ s.block.mpc = 0 ∧
        s.params.cancelPoll = .perCycle ∧ s.block.row ≠ 0) :=
  ⟨⟨alone _ rfl rfl rfl rfl, by decide⟩, alone _ rfl rfl rfl rfl, by decide⟩

theorem test_witness_FullPassPresentsEveryRow :
    EngineAlone (scanning 5 0 0x81) ∧ (scanning 5 0 0x81).block.constructed = true ∧
      (scanning 5 0 0x81).block.engActive = true ∧ (scanning 5 0 0x81).block.mpc = 0 ∧
      (scanning 5 0 0x81).block.cancel = false :=
  ⟨alone _ rfl rfl rfl rfl, by decide⟩

/-- V-S6, V-S7, V-S9: inside a row, at its boundary, at its last write. -/
theorem test_witness_StopLatencyPerRow :
    (∀ s ∈ [scanning 5 20 0, scanning 5 0 0, scanning 3 50 0], EngineAlone s) ∧
      ∀ s ∈ [scanning 5 20 0, scanning 5 0 0, scanning 3 50 0], s.params.cancelPoll = .perRow ∧
        s.block.constructed = true ∧ s.block.lifecycle = some .scanning := by
  refine ⟨fun s hs => ?_, by decide⟩
  simp only [List.mem_cons, List.not_mem_nil, or_false] at hs
  obtain rfl | rfl | rfl := hs <;> exact alone _ rfl rfl rfl rfl

/-- V-S10 to V-S14. -/
theorem test_witness_StopLatencyPerCycle :
    ∀ s ∈ [scanning 5 20 0, scanning 0 0 0, scanning 1 0 0, scanning 0 1 0, scanning 7 50 0].map
        (withParams · .perCycle .atomic),
      s.uop = none ∧ s.busy = none ∧ s.inputs = [] ∧ s.endless = false ∧
        s.params.cancelPoll = .perCycle ∧ s.block.constructed = true ∧
        s.block.lifecycle = some .scanning := by decide

/-- V-S5's state, and the first and last writes of a row. -/
theorem test_witness_RestartWhileDraining :
    ([0, 1, 2, 3, 4, 5, 6, 255] : List Word).length = 8 ∧
      (∀ w ∈ ([0, 1, 2, 3, 4, 5, 6, 255] : List Word), w.toNat < 256) ∧
      ∀ s ∈ [draining 1 30 0x81, draining 1 1 0x81, draining 1 50 0x81],
      s.uop = none ∧ s.busy = none ∧ s.inputs = [] ∧ s.endless = false ∧
        s.params.cancelPoll = .perRow ∧
        s.params.bufferWriteMode = .atomic ∧ s.block.constructed = true ∧ s.block.lifecycle = some .draining ∧
        s.block.mpc ≠ 0 :=
  ⟨rfl, by simp, by decide⟩

/-! #### Infinite executions -/

/-- The execution from `s` that stays where a step gives no next state. -/
def onward (s : State) : Nat → State
  | 0 => s
  | k + 1 =>
    match step (onward s k) with
    | .next t => t
    | .fault _ => onward s k
    | .refused _ => onward s k

/-- An engine alone that nothing cancels scans for ever. -/
theorem onward_scans {s : State} (ha : EngineAlone s) (hc : s.block.constructed = true)
    (he : s.block.engActive = true) (hx : s.block.cancel = false) (k : Nat) :
    step (onward s k) = .next (onward s (k + 1)) ∧ EngineAlone (onward s k) ∧
      (onward s k).block.constructed = true ∧ (onward s k).block.engActive = true ∧
      (onward s k).block.cancel = false := by
  suffices h : EngineAlone (onward s k) ∧ (onward s k).block.constructed = true ∧
      (onward s k).block.engActive = true ∧ (onward s k).block.cancel = false by
    obtain ⟨t, ht, -⟩ := step_engineAlone_next h.1 h.2.1 h.2.2.1 h.2.2.2
    exact ⟨by simp [onward, ht], h⟩
  induction k with
  | zero => exact ⟨ha, hc, he, hx⟩
  | succ k ih =>
    obtain ⟨t, ht, h⟩ := step_engineAlone_next ih.1 ih.2.1 ih.2.2.1 ih.2.2.2
    simpa [onward, ht] using h

theorem scans (k : Nat) :
    step (onward (scanning 5 20 0) k) = .next (onward (scanning 5 20 0) (k + 1)) ∧
      (onward (scanning 5 20 0) k).block.engActive = true ∧ (onward (scanning 5 20 0) k).block.cancel = false := by
  obtain ⟨h, -, -, he, hx⟩ := onward_scans (alone (scanning 5 20 0) rfl rfl rfl rfl) rfl rfl rfl k
  exact ⟨h, he, hx⟩

/-- A scan that goes on for ever, its engine always active. -/
theorem test_witness_EveryRunIsFair :
    (onward (scanning 5 20 0) 0).Inv ∧ IsRun (onward (scanning 5 20 0)) ∧
      ∃ n, ∀ k, n ≤ k → (onward (scanning 5 20 0) k).block.engActive = true :=
  ⟨inv_scanning, fun k => (scans k).1, 0, fun k _ => (scans k).2.1⟩

theorem test_witness_ScanRepeatsForEver :
    (onward (scanning 5 20 0) 0).Inv ∧ IsRun (onward (scanning 5 20 0)) ∧
      ∀ k, (onward (scanning 5 20 0) k).block.engActive = true ∧ (onward (scanning 5 20 0) k).block.cancel = false :=
  ⟨inv_scanning, fun k => (scans k).1, fun k => (scans k).2⟩

/-- A draining engine at its boundary, which exits and stays quiet. -/
def exits : Nat → State
  | 0 => draining 5 0 0
  | _ + 1 => { draining 5 0 0 with
      block := { (draining 5 0 0).block with cancel := false, row := 0, engActive := false } }

theorem test_witness_NoCancelStandsForEver :
    (exits 0).Inv ∧ IsRun exits ∧ (exits 0).block.cancel = true := by
  refine ⟨⟨test_inv_draining, rfl, fun _ h => (by cases h), fun _ h => (by cases h)⟩, ?_, rfl⟩
  rintro (_ | k) <;> rfl

end Sys2Proof.Tests
end

section
/-! PROOFS. One step of the machine (00_scope.md): what it keeps of the configuration, how much it adds to the pin
history, and which command a HOST step runs. -/

namespace Sys2Proof.Machine

/-! ### The configuration -/

/-- The parameters (R7) and whether the HOST goes on for ever (R10) are the same. -/
def SameConfig (s t : State) : Prop := t.params = s.params ∧ t.endless = s.endless

theorem SameConfig.refl (s : State) : SameConfig s s := ⟨rfl, rfl⟩

theorem SameConfig.trans {s t u : State} (h : SameConfig s t) (h' : SameConfig t u) : SameConfig s u :=
  ⟨h'.1.trans h.1, h'.2.trans h.2⟩

theorem TurnIs.sameConfig {s s' : State} {a : Agent} (h : TurnIs s a s') : SameConfig s s' := by
  obtain ⟨-, -, hp, -, he, -⟩ := h.same
  exact ⟨hp, he⟩

theorem HostTurnIs.sameConfig {s s' : State} (h : HostTurnIs s s') : SameConfig s s' := by
  obtain ⟨-, -, hp, he, -⟩ := h.same
  exact ⟨hp, he⟩

theorem State.replacementStep_sameConfig (s : State) (r : Replacement) : SameConfig s (s.replacementStep r) := by
  obtain ⟨-, -, hp, -, he, -⟩ := s.replacementStep_frame r
  exact ⟨hp, he⟩

theorem State.replaceBuffer_sameConfig (s : State) (v : Rows) (startScan : Bool) :
    SameConfig s (s.replaceBuffer v startScan) := by
  obtain ⟨-, -, hp, -, he, -⟩ := s.replaceBuffer_frame v startScan
  exact ⟨hp, he⟩

theorem State.pinWrites_sameConfig (s : State) (l : List (Pin × Level)) : SameConfig s (s.pinWrites l) := by
  obtain ⟨-, -, ⟨hp, -, he, -⟩, -⟩ := s.pinWrites_frame l
  exact ⟨hp, he⟩

/-- A command keeps the configuration if its effect does: its errors only respond (R211, R212). -/
theorem State.runCommand_sameConfig {s t : State} {checks : List (Option CommandError)} {effect : State → State}
    (h : s.runCommand checks effect = .next t) (he : SameConfig s (effect s)) : SameConfig s t := by
  obtain ⟨-, ⟨e, -, rfl⟩ | ⟨-, rfl⟩⟩ := State.runCommand_next h
  · exact ⟨rfl, rfl⟩
  · exact he

/-- No instruction writes the configuration (R37). -/
theorem exec_sameConfig {i : Instr} {s t : State} (h : exec i s = .next t) : SameConfig s t := by
  cases i with
  | construct p => exact State.runCommand_sameConfig (show execConstruct p s = _ from h) ⟨rfl, rfl⟩
  | setImageFlat p =>
    exact State.runCommand_sameConfig (show execSetImageFlat p s = _ from h) (s.replaceBuffer_sameConfig _ _)
  | setImagePacked p =>
    exact State.runCommand_sameConfig (show execSetImagePacked p s = _ from h) (s.replaceBuffer_sameConfig _ _)
  | clear p => exact State.runCommand_sameConfig (show execClear p s = _ from h) (s.replaceBuffer_sameConfig _ _)
  | stop p => exact State.runCommand_sameConfig (show execStop p s = _ from h) ⟨rfl, rfl⟩
  | readBuffer p => exact State.runCommand_sameConfig (show execReadBuffer p s = _ from h) ⟨rfl, rfl⟩
  | pinWrite p v => cases h; exact ⟨rfl, rfl⟩
  | pushByte b => cases h; exact s.pinWrites_sameConfig _
  | latch => cases h; exact s.pinWrites_sameConfig _
  | presentRow r b =>
    rw [exec_presentRow] at h
    cases h; exact s.pinWrites_sameConfig _
  | scanPoll =>
    obtain ⟨-, -, -, ⟨-, -, rfl⟩ | ⟨-, rfl⟩⟩ := exec_scanPoll_next h <;> exact ⟨rfl, rfl⟩
  | scanWrite n =>
    obtain ⟨-, -, -, rfl⟩ := exec_scanWrite_next h
    exact ⟨rfl, rfl⟩

/-- Settles O42, by what a step that answers a next state can have done: the agent's turn, the instruction it runs,
a sub-step and a loss of power each keep the configuration. -/
theorem stepKeepsParameters : Obligations.StepKeepsParameters := by
  intro s t h
  change SameConfig s t
  obtain ⟨w, i, -, -, hx⟩ | ⟨s', r, inputs, hs, -, -, rfl⟩ | ⟨s', k, rest, hs, -, rfl⟩ |
    ⟨s', words, rest, i, hs, -, -, -, hx⟩ | ⟨s', words, rest, reason, hs, -, -, rfl⟩ | ⟨s', hs, hx⟩ |
    ⟨-, -, rfl⟩ := step_next h
  · exact exec_sameConfig (s := { s with uop := none }) hx
  · exact hs.sameConfig.trans (({ s' with inputs := inputs }).replacementStep_sameConfig r)
  · exact hs.sameConfig
  · exact hs.sameConfig.trans (exec_sameConfig (s := { s' with inputs := rest }) hx)
  · exact hs.sameConfig
  · exact hs.sameConfig.trans (exec_sameConfig hx)
  · exact .refl t

/-! ### The pin history -/

theorem SamePinSide.trace {b b' : Block} (h : SamePinSide b b') : b'.trace = b.trace := by
  obtain ⟨-, -, -, -, -, -, -, -, -, ht⟩ := h
  exact ht

/-- A delivered command keeps the history, or is the CONSTRUCT that empties it (R31, R36). -/
theorem exec_command_trace {i : Instr} {s t : State} {words : List Word} (hd : decodeCommand words = .ok i)
    (h : exec i s = .next t) :
    t.block.trace = s.block.trace ∨ (t.block.trace = [] ∧ s.block.constructed = false) := by
  obtain ⟨-, ⟨e, rfl⟩ | ⟨hc, ds, stcp, shcp, rfl⟩ | ⟨-, v, b, rfl⟩ | ⟨-, rfl⟩ | ⟨-, rfl⟩⟩ := exec_command_next hd h
  · exact .inl rfl
  · exact .inr ⟨rfl, hc⟩
  · exact .inl (s.replaceBuffer_frame v b).1.trace
  · exact .inl s.block.stopScan_trace
  · exact .inl rfl

/-- The sequencer's operation keeps the history, or is a SCAN_WRITE, which appends one event (R171, R172). -/
theorem exec_scanOp_trace {s t : State} (h : exec s.block.scanOp s = .next t) :
    t.block.trace = s.block.trace ∨ ∃ e, t.block.trace = s.block.trace ++ [e] := by
  obtain ⟨-, -, ⟨-, -, -, rfl⟩ | ⟨-, -, rfl⟩ | ⟨n, -, rfl⟩⟩ := exec_scanOp_next h
  · exact .inl s.block.onCancel_trace
  · exact .inl rfl
  · exact .inr ⟨seqW s.block.curSel s.block.curCol n, by simp [State.scanned]⟩

/-- Settles O40, by what a step that answers a next state can have done: only the ENGINE's pin write appends an
event, and only CONSTRUCT and a loss of power empty the history. -/
theorem stepWritesAtMostOnePin : Obligations.StepWritesAtMostOnePin := by
  intro s t hu h
  obtain ⟨w, i, hw, -⟩ | ⟨s', r, inputs, hs, -, -, rfl⟩ | ⟨s', k, rest, -, -, rfl⟩ |
    ⟨s', words, rest, i, hs, -, -, hd, hx⟩ | ⟨s', words, rest, reason, hs, -, -, rfl⟩ | ⟨s', hs, hx⟩ |
    ⟨-, -, rfl⟩ := step_next h
  · simp [hu] at hw
  · rw [← hs.same.1]
    exact .inl (({ s' with inputs := inputs }).replacementStep_frame r).1.trace
  · exact .inr (.inr ⟨rfl, .inr rfl⟩)
  · rw [← hs.same.1]
    obtain hk | ⟨ht, hc⟩ := exec_command_trace hd hx
    · exact .inl hk
    · exact .inr (.inr ⟨ht, .inl hc⟩)
  · exact .inl (congrArg Block.trace hs.same.1)
  · rw [← hs.same.1]
    obtain hk | ha := exec_scanOp_trace hx
    · exact .inl hk
    · exact .inr (.inl ha)
  · exact .inl rfl

/-! ### The command a HOST step runs -/

/-- With no command in progress and a delivery listed, the HOST's step is that delivery. -/
theorem fetchInput_command {s : State} {words : List Word} {rest : List Input} (hb : s.busy = none)
    (hi : s.inputs = .command words :: rest) : fetchInput s = fetchDelivery words { s with inputs := rest } := by
  simp [fetchInput, hb, hi]

/-- A delivery that decodes runs what it decodes to (R72). -/
theorem fetchDelivery_ok {words : List Word} {i : Instr} (hd : decodeCommand words = .ok i) (s : State) :
    fetchDelivery words s = .run i s := by
  simp [fetchDelivery, hd]

/-- Settles O29, by the fetch at a HOST turn, which a turn leaves with no command in progress. -/
theorem stepRunsDeliveredCommand : Obligations.StepRunsDeliveredCommand := by
  intro s s' words rest i hs hb hi hd
  have hb' : s'.busy = none := by
    obtain ⟨-, -, -, -, hk, -⟩ := hs.same
    exact hk.trans hb
  have hf : fetch s = .run i { s' with inputs := rest } := calc
    fetch s = fetchInput s' := fetch_of_hostTurn hs
    _ = fetchDelivery words { s' with inputs := rest } := fetchInput_command hb' hi
    _ = .run i { s' with inputs := rest } := fetchDelivery_ok hd _
  simp [step, hf]

end Sys2Proof.Machine
end

section
/-! PROOFS. The machine's invariant (10_state.md R33, 42_scan.md R176): it holds at power-up, and every
step keeps it. -/

namespace Sys2Proof.Machine

/-- Every row the replacement has no longer to write holds its new byte (R137). -/
def Replacement.Written (r : Replacement) (b : Block) : Prop :=
  ∀ i : Row, i ∈ r.left ∨ b.bufRead i = r.rows[i.toNat]'i.isLt

theorem mem_allRows (i : Row) : i ∈ allRows := by
  revert i; decide

/-- A replacement that starts has every row to write (R137). -/
theorem Replacement.written_allRows (v : Rows) (startScan : Bool) (b : Block) :
    Replacement.Written ⟨v, allRows, startScan⟩ b := fun i => .inl (mem_allRows i)

/-- Writing one row's new byte and taking the row off the list keeps the progress (R137). -/
theorem Replacement.Written.writeRow {r : Replacement} {b : Block} (h : r.Written b) (row : Row) :
    Replacement.Written { r with left := r.left.erase row } (b.bufWriteRow row (r.rows[row.toNat]'row.isLt)) := by
  intro i
  by_cases hi : i = row
  · subst hi
    exact .inr (by simp)
  · obtain hl | hr := h i
    · exact .inl ((List.mem_erase_of_ne hi).2 hl)
    · exact .inr (by simp [hi, hr])

/-! ### Ways a state meets the invariant -/

/-- With no replacement in progress the invariant is the block's. -/
theorem State.inv_of_notBusy {s : State} (hb : s.block.Inv) (hu : s.uop = none) (hk : s.busy = none) : s.Inv :=
  ⟨hb, hu, by simp [hk], by simp [hk]⟩

/-- Beside the block's invariant, the machine's looks at the construction state, the buffer and the replacement
in progress. -/
theorem State.Inv.of_kept {s t : State} (h : s.Inv) (hb : t.block.Inv)
    (hc : t.block.constructed = s.block.constructed) (hf : t.block.buf = s.block.buf) (hu : t.uop = none)
    (hk : t.busy = s.busy) : t.Inv := by
  refine ⟨hb, hu, fun r hr => hc.trans (h.busyConstructed r (hk ▸ hr)), fun r hr i => ?_⟩
  have hw := h.busyWritten r (hk ▸ hr) i
  simpa [Block.bufRead, hf] using hw

/-- The inputs, the outputs and the choices may be any. -/
theorem State.Inv.of_sameBlock {s t : State} (h : s.Inv) (hb : t.block = s.block) (hu : t.uop = none)
    (hk : t.busy = s.busy) : t.Inv :=
  h.of_kept (hb ▸ h.block) (by rw [hb]) (by rw [hb]) hu hk

/-- The invariant does not look at the inputs. -/
theorem State.Inv.withInputs {s : State} (h : s.Inv) (inputs : List Input) : ({ s with inputs := inputs }).Inv :=
  h.of_sameBlock rfl h.noMicroOp rfl

/-- A HOST turn keeps the invariant: it changes only the choices and the inputs. -/
theorem HostTurnIs.inv {s s' : State} (h : HostTurnIs s s') (hi : s.Inv) : s'.Inv := by
  obtain ⟨hb, -, -, -, hk, -, -, hu⟩ := h.same
  exact hi.of_sameBlock hb hu hk

/-- A turn keeps the invariant: it changes only the choices. -/
theorem TurnIs.inv {s s' : State} {a : Agent} (h : TurnIs s a s') (hi : s.Inv) : s'.Inv := by
  obtain ⟨hb, -, -, -, -, hk, -, -, hu⟩ := h.same
  exact hi.of_sameBlock hb hu hk

/-! ### The HOST's steps -/

/-- The end of a replacement on a constructed block (R132 to R134, R137). -/
theorem State.finishReplacement_inv {s : State} (hb : s.block.Inv) (hu : s.uop = none)
    (hc : s.block.constructed = true) (startScan : Bool) : (s.finishReplacement startScan).Inv := by
  refine State.inv_of_notBusy ?_ hu rfl
  cases startScan
  · exact hb
  · exact hb.startScanIfIdle hc

/-- A sub-step of a replacement on a constructed block (R137), which need not stand in `busy` yet: it may be the
first. -/
theorem State.replacementStep_inv {s : State} {r : Replacement} (hb : s.block.Inv) (hu : s.uop = none)
    (hc : s.block.constructed = true) (hw : r.Written s.block) : (s.replacementStep r).Inv := by
  by_cases hl : r.left = []
  · rw [State.replacementStep_nil s r hl]
    exact State.finishReplacement_inv hb hu hc r.startScan
  · obtain ⟨row, -, -, ht⟩ := s.replacementStep_cons r hl
    rw [ht]
    refine ⟨hb.withBuf _, by simpa using hu, fun _ _ => hc, fun r' hr' => ?_⟩
    cases hr'
    exact hw.writeRow row

/-- A replacement of a constructed block's buffer, in one step or by its first sub-step (R57, R137). -/
theorem State.replaceBuffer_inv {s : State} (hb : s.block.Inv) (hu : s.uop = none)
    (hc : s.block.constructed = true) (v : Rows) (startScan : Bool) : (s.replaceBuffer v startScan).Inv := by
  unfold State.replaceBuffer
  cases s.params.bufferWriteMode with
  | atomic =>
    exact State.finishReplacement_inv (s := { s with block := { s.block with buf := v } }) (hb.withBuf v) hu hc startScan
  | perRow => exact State.replacementStep_inv hb hu hc (Replacement.written_allRows v startScan s.block)

/-- The next sub-step of the replacement in progress keeps the invariant. -/
theorem State.Inv.replacementStep {s : State} {r : Replacement} (h : s.Inv) (hk : s.busy = some r) :
    (s.replacementStep r).Inv :=
  State.replacementStep_inv h.block h.noMicroOp (h.busyConstructed r hk) (h.busyWritten r hk)

/-- A loss of power leaves a state that meets the invariant, whatever was there (R224, R240). -/
theorem State.powerCycle_inv (s : State) : s.powerCycle.Inv := State.inv_of_notBusy Block.inv_powerUp rfl rfl

/-- A delivered command keeps the invariant (R130). -/
theorem State.Inv.exec_command {i : Instr} {s t : State} {words : List Word} (hi : s.Inv)
    (hd : decodeCommand words = .ok i) (h : exec i s = .next t) : t.Inv := by
  obtain ⟨hk, ⟨e, rfl⟩ | ⟨-, ds, stcp, shcp, rfl⟩ | ⟨hc, v, startScan, rfl⟩ | ⟨hc, rfl⟩ | ⟨-, rfl⟩⟩ :=
    exec_command_next hd h
  · exact State.inv_of_notBusy hi.block hi.noMicroOp hk
  · exact State.inv_of_notBusy (Block.inv_afterConstruct ds stcp shcp) hi.noMicroOp hk
  · exact State.replaceBuffer_inv hi.block hi.noMicroOp hc v startScan
  · exact State.inv_of_notBusy (hi.block.stopScan hc) hi.noMicroOp hk
  · exact State.inv_of_notBusy hi.block hi.noMicroOp hk

/-! ### The ENGINE's steps -/

/-- The sequencer's operation keeps the invariant: it writes neither the buffer nor the construction state, and
honouring a cancel request leads to another lifecycle state (R175, R179). -/
theorem State.Inv.exec_scanOp {s t : State} (hi : s.Inv) (h : exec s.block.scanOp s = .next t) : t.Inv := by
  obtain ⟨hc, he, ⟨hm, -, hx, rfl⟩ | ⟨-, -, rfl⟩ | ⟨n, -, rfl⟩⟩ := exec_scanOp_next h
  · exact hi.of_kept (hi.block.onCancel hc hm hx) (by simp) (by simp) hi.noMicroOp rfl
  · exact hi.of_kept (hi.block.of_same he rfl rfl rfl rfl rfl) rfl rfl hi.noMicroOp rfl
  · have hb : (s.scanned n).block.Inv := by
      apply hi.block.of_same he <;> simp [State.scanned]
    exact hi.of_kept hb (by simp [State.scanned]) (by simp [State.scanned]) hi.noMicroOp rfl

/-! ### The invariant -/

/-- Settles O44, by what a step that answers a next state can have done. -/
theorem stepKeepsInvariant : Obligations.StepKeepsInvariant := by
  intro s t hi h
  obtain ⟨w, i, hw, -⟩ | ⟨s', r, inputs, hs, hk, -, rfl⟩ | ⟨s', k, rest, -, -, rfl⟩ |
    ⟨s', words, rest, i, hs, -, -, hd, hx⟩ | ⟨s', words, rest, reason, hs, -, -, rfl⟩ | ⟨s', hs, hx⟩ |
    ⟨-, -, rfl⟩ := step_next h
  · simp [hi.noMicroOp] at hw
  · exact ((hs.inv hi).withInputs inputs).replacementStep hk
  · exact State.powerCycle_inv _
  · exact ((hs.inv hi).withInputs rest).exec_command hd hx
  · exact (hs.inv hi).of_sameBlock rfl (hs.inv hi).noMicroOp rfl
  · exact (hs.inv hi).exec_scanOp hx
  · exact hi

/-- Settles O45: with no replacement in progress the invariant is the power-up block's. -/
theorem resetMeetsInvariant : Obligations.ResetMeetsInvariant :=
  State.inv_of_notBusy Block.inv_powerUp rfl rfl

end Sys2Proof.Machine
end

section
/-! PROOFS. The pin history (20_memory.md R53, R62): PUSH_BYTE's writes, and the shape that every step keeps,
complete row presentations in scan order and the row in flight's writes so far. -/

namespace Sys2Proof.Machine

/-! ### The writes of a byte -/

/-- The writes of a byte written out, bit 7 first (R53, R102). -/
theorem byteWrites_eq (b : Byte) :
    byteWrites b =
      [(.ds, b.getLsbD 7), (.shcp, false), (.shcp, true), (.ds, b.getLsbD 6), (.shcp, false), (.shcp, true),
       (.ds, b.getLsbD 5), (.shcp, false), (.shcp, true), (.ds, b.getLsbD 4), (.shcp, false), (.shcp, true),
       (.ds, b.getLsbD 3), (.shcp, false), (.shcp, true), (.ds, b.getLsbD 2), (.shcp, false), (.shcp, true),
       (.ds, b.getLsbD 1), (.shcp, false), (.shcp, true), (.ds, b.getLsbD 0), (.shcp, false), (.shcp, true)] := rfl

/-- Settles O18, by what the writes of a byte come to and the frame of pin writes. -/
theorem pushByteWritesMsbFirst : Obligations.PushByteWritesMsbFirst := by
  intro s b
  obtain ⟨-, -, hport, hout⟩ := s.pinWrites_frame (byteWrites b)
  refine ⟨s.pinWrites (byteWrites b), exec_pushByte b s, ?_, ?_, hout, hport⟩
  · rw [State.pinWrites_byte, byteWrites_eq]
  · rw [State.pinWrites_byte]

/-! ### The sequencer under the HOST's steps -/

/-- The sequencer stands where it stood, or at the start of a scan begun from full idle (R177, R179). -/
def SequencerKept (b b' : Block) : Prop :=
  (b'.row = b.row ∧ b'.mpc = b.mpc) ∨
    (b.scanState = .idle ∧ b.engActive = false ∧ b'.row = 0 ∧ b'.mpc = 0)

theorem Block.startScanIfIdle_sequencerKept (b : Block) : SequencerKept b b.startScanIfIdle := by
  obtain ⟨-, hscanning, hdraining, hidle⟩ := b.startScanIfIdle_scanStarted
  cases hs : b.scanState with
  | scanning =>
    obtain ⟨-, -, -, hr, hm⟩ := hscanning hs
    exact .inl ⟨hr, hm⟩
  | idle =>
    cases he : b.engActive with
    | true =>
      obtain ⟨-, -, -, hr, hm⟩ := hdraining hs he
      exact .inl ⟨hr, hm⟩
    | false =>
      obtain ⟨-, -, -, hr, hm⟩ := hidle hs he
      exact .inr ⟨hs, he, hr, hm⟩

theorem State.finishReplacement_sequencerKept (s : State) (startScan : Bool) :
    SequencerKept s.block (s.finishReplacement startScan).block := by
  cases startScan with
  | false => exact .inl ⟨rfl, rfl⟩
  | true => exact s.block.startScanIfIdle_sequencerKept

/-- A sub-step of a replacement moves the sequencer only as the start of a scan (R137). -/
theorem State.replacementStep_sequencerKept (s : State) (r : Replacement) :
    SequencerKept s.block (s.replacementStep r).block := by
  by_cases hl : r.left = []
  · rw [State.replacementStep_nil s r hl]
    exact s.finishReplacement_sequencerKept r.startScan
  · obtain ⟨row, -, -, ht⟩ := s.replacementStep_cons r hl
    rw [ht]
    exact .inl ⟨rfl, rfl⟩

/-- So does a replacement's first step, or only one (R57, R137). -/
theorem State.replaceBuffer_sequencerKept (s : State) (v : Rows) (startScan : Bool) :
    SequencerKept s.block (s.replaceBuffer v startScan).block := by
  unfold State.replaceBuffer
  cases s.params.bufferWriteMode with
  | atomic => exact ({ s with block := { s.block with buf := v } }).finishReplacement_sequencerKept startScan
  | perRow => exact s.replacementStep_sequencerKept ⟨v, allRows, startScan⟩

/-! ### Blocks with the shape of R62 -/

/-- A fresh scan may begin after any rows in scan order (R183). -/
theorem rowsInOrder.restart {rows : List Row} {r : Row} (h : rowsInOrder rows r) : rowsInOrder rows 0 := by
  cases rows with
  | nil => rfl
  | cons last earlier => exact ⟨.inr rfl, h.2⟩

/-- An empty history at the start of a scan. -/
theorem Block.traceOk_of_empty {b : Block} (ht : b.trace = []) (hr : b.row = 0) (hm : b.mpc = 0) : b.TraceOk :=
  ⟨[], by simp [ht, hm], hr, fun h => absurd hm h⟩

/-- What keeps the pins' side and the sequencer keeps the shape. -/
theorem Block.TraceOk.of_same {b b' : Block} (h : b.TraceOk) (hp : SamePinSide b b') (hr : b'.row = b.row)
    (hm : b'.mpc = b.mpc) : b'.TraceOk := by
  obtain ⟨-, -, -, -, -, -, -, hsel, hcol, htrace⟩ := hp
  simpa only [Block.TraceOk, hsel, hcol, htrace, hr, hm] using h

/-- At a row boundary the next row may be row 0 (R175, R177). -/
theorem Block.TraceOk.restart {b b' : Block} (h : b.TraceOk) (ht : b'.trace = b.trace) (hm : b.mpc = 0)
    (hr : b'.row = 0) (hm' : b'.mpc = 0) : b'.TraceOk := by
  obtain ⟨frames, htrace, horder, -⟩ := h
  refine ⟨frames, ?_, hr ▸ horder.restart, fun hn => absurd hm' hn⟩
  simpa [hm, hm', ht] using htrace

/-- A HOST step that leaves the pins' side alone: a scan can begin only with no engine, and then the sequencer
stands at a row boundary (INV5 of R33). -/
theorem Block.TraceOk.of_sequencerKept {b b' : Block} (h : b.TraceOk) (hi : b.Inv) (hp : SamePinSide b b')
    (hs : SequencerKept b b') : b'.TraceOk := by
  obtain ⟨hr, hm⟩ | ⟨-, he, hr, hm⟩ := hs
  · exact h.of_same hp hr hm
  · exact h.restart hp.trace (hi.inv5 he).1 hr hm

/-- A row that starts has its own selector and no write yet (R171). -/
theorem Block.TraceOk.startRow {b : Block} (h : b.TraceOk) (hm : b.mpc = 0) : b.startRow.TraceOk := by
  obtain ⟨frames, htrace, horder, -⟩ := h
  exact ⟨frames, by simpa [Block.startRow, hm] using htrace, horder, fun _ => rfl⟩

/-! ### The ENGINE's pin write -/

/-- Write n of the row in flight is the next of its writes; the last one completes the row (R172, R173). -/
theorem State.traceOk_scanned {s : State} {n : Fin 50} (h : s.block.TraceOk) (hm : s.block.mpc = n.succ) :
    (s.scanned n).block.TraceOk := by
  obtain ⟨frames, htrace, horder, hsel⟩ := h
  have hsel' : s.block.curSel = selector s.block.row := hsel (by simp [hm])
  have hwritten : s.block.trace ++ [seqW s.block.curSel s.block.curCol n] =
      (frames.reverse.flatMap fun f => rowWrites (selector f.1) f.2) ++
        (rowWrites s.block.curSel s.block.curCol).take (n.val + 1) := by
    rw [rowWrites_take_succ, ← List.append_assoc, htrace, hm]
    simp
  rw [State.scanned_eq hm]
  by_cases hn : n = 49
  · subst hn
    refine ⟨(s.block.row, s.block.curCol) :: frames, ?_, ⟨.inl rfl, horder⟩, fun h0 => absurd rfl h0⟩
    rw [List.take_of_length_le (by simp)] at hwritten
    simpa [State.atSeq, hsel'] using hwritten
  · have hv : (n.succ + 1 : Fin 51).val = n.val + 1 + 1 := by
      rw [Fin.val_add]; simp; omega
    refine ⟨frames, ?_, ?_, fun _ => ?_⟩
    · simpa [State.atSeq, hn, hv] using hwritten
    · simpa [State.atSeq, hn] using horder
    · simpa [State.atSeq, hn] using hsel'

/-! ### Steps -/

/-- A delivered command keeps the shape: CONSTRUCT begins an empty history, and no other one touches the pins
(R36, R179). -/
theorem Block.TraceOk.exec_command {i : Instr} {s t : State} {words : List Word} (ho : s.block.TraceOk)
    (hi : s.block.Inv) (hd : decodeCommand words = .ok i) (h : exec i s = .next t) : t.block.TraceOk := by
  obtain ⟨-, ⟨e, rfl⟩ | ⟨-, ds, stcp, shcp, rfl⟩ | ⟨-, v, startScan, rfl⟩ | ⟨-, rfl⟩ | ⟨-, rfl⟩⟩ :=
    exec_command_next hd h
  · exact ho
  · exact Block.traceOk_of_empty rfl rfl rfl
  · exact ho.of_sequencerKept hi (s.replaceBuffer_frame v startScan).1 (s.replaceBuffer_sequencerKept v startScan)
  · exact ho.of_same (by simp [SamePinSide]) (by simp) (by simp)
  · exact ho

/-- The sequencer's operation keeps the shape (R170). -/
theorem Block.TraceOk.exec_scanOp {s t : State} (ho : s.block.TraceOk) (h : exec s.block.scanOp s = .next t) :
    t.block.TraceOk := by
  obtain ⟨-, -, ⟨hm, -, -, rfl⟩ | ⟨hm, -, rfl⟩ | ⟨n, hm, rfl⟩⟩ := exec_scanOp_next h
  · exact ho.restart s.block.onCancel_trace hm s.block.onCancel_row (s.block.onCancel_mpc.trans hm)
  · exact ho.startRow hm
  · exact State.traceOk_scanned ho hm

/-- Settles O46, by what a step that answers a next state can have done. -/
theorem stepKeepsTraceShape : Obligations.StepKeepsTraceShape := by
  intro s t hi ho h
  obtain ⟨w, i, hw, -⟩ | ⟨s', r, inputs, hs, -, -, rfl⟩ | ⟨s', k, rest, -, -, rfl⟩ |
    ⟨s', words, rest, i, hs, -, -, hd, hx⟩ | ⟨s', words, rest, reason, hs, -, -, rfl⟩ | ⟨s', hs, hx⟩ |
    ⟨-, -, rfl⟩ := step_next h
  · simp [hi.noMicroOp] at hw
  · rw [← hs.same.1] at ho
    exact ho.of_sequencerKept (hs.inv hi).block (({ s' with inputs := inputs }).replacementStep_frame r).1
      (({ s' with inputs := inputs }).replacementStep_sequencerKept r)
  · exact Block.traceOk_of_empty rfl rfl rfl
  · rw [← hs.same.1] at ho
    exact Block.TraceOk.exec_command (s := { s' with inputs := rest }) ho (hs.inv hi).block hd hx
  · rw [← hs.same.1] at ho
    exact ho
  · rw [← hs.same.1] at ho
    exact ho.exec_scanOp hx
  · exact ho

end Sys2Proof.Machine
end

section
/-! PROOFS. The two formats (30_encoding.md R71 to R75, R79, R80): the decoder and the encoder invert each other, and
what a reserved micro-operation word is by the values of its fields. -/

namespace Sys2Proof

/-! ### Producer commands -/

/-- The encoding of the command a tag stands for, and when it is well-formed (R71, R74). -/
theorem encode_of_commandOfTag {tag : BitVec 4} {p : List Word} {i : Instr} (h : commandOfTag tag p = some i) :
    encode i = encodeCommand tag p ∧ i.wellFormed = lenFits p := by
  obtain ⟨rfl, rfl⟩ | ⟨rfl, rfl⟩ | ⟨rfl, rfl⟩ | ⟨rfl, rfl⟩ | ⟨rfl, rfl⟩ | ⟨rfl, rfl⟩ := commandOfTag_eq_some h <;>
    exact ⟨rfl, rfl⟩

/-- A delivery under the header of a tag in the table is that command, where its count fits in LEN (R71, R72). -/
theorem decodeCommand_encodeHeader {tag : BitVec 4} {p : List Word} {i : Instr} (h : commandOfTag tag p = some i)
    (hl : lenFits p = true) : decodeCommand (encodeHeader tag p :: p) = .ok i := by
  have hl' : p.length < 65536 := by simpa [lenFits] using hl
  simp [decodeCommand, h, Nat.mod_eq_of_lt hl']

/-- A header whose LEN is the payload's count and whose RSVD is 0 is the one the encoder writes (R71). -/
theorem encodeHeader_headerTag {hd : Word} {p : List Word} (hl : p.length = (headerLen hd).toNat)
    (hr : headerRsvd hd = 0#12) : encodeHeader (headerTag hd) p = hd := by
  calc encodeHeader (headerTag hd) p = headerLen hd ++ headerRsvd hd ++ headerTag hd := by
        rw [encodeHeader, hl, BitVec.ofNat_toNat, BitVec.setWidth_eq, hr]
    _ = hd := header_eq_fields hd

/-- An accepted delivery is the encoding of a well-formed command (R71, R72, R74). -/
theorem encode_of_decodeCommand {words : List Word} {i : Instr} (h : decodeCommand words = .ok i) :
    encode i = .command words ∧ i.wellFormed = true := by
  obtain ⟨hd, p, rfl, hl, hr, hc⟩ := decodeCommand_ok h
  obtain ⟨he, hw⟩ := encode_of_commandOfTag hc
  have hlt : p.length < 65536 := hl ▸ (headerLen hd).isLt
  exact ⟨by rw [he, encodeCommand, encodeHeader_headerTag hl hr], by simp [hw, lenFits, hlt]⟩

/-! ### Micro-operations -/

theorem pinOfCode_eq_some_iff {c : BitVec 2} {p : Pin} : pinOfCode c = some p ↔ c = pinCode p := by
  cases p <;> revert c <;> decide

/-- The fields of the word of a micro-operation, as R79 lays them out. -/
def MicroOpFields (w : BitVec 16) : Instr → Prop
  | .pinWrite p v =>
    w.extractLsb' 7 9 = 0#9 ∧ w.getLsbD 6 = v ∧ w.extractLsb' 4 2 = pinCode p ∧ w.extractLsb' 0 4 = 0x8#4
  | .pushByte b => w.extractLsb' 8 8 = b ∧ w.extractLsb' 4 4 = 0#4 ∧ w.extractLsb' 0 4 = 0x9#4
  | .latch => w.extractLsb' 4 12 = 0#12 ∧ w.extractLsb' 0 4 = 0xA#4
  | .presentRow r b =>
    w.extractLsb' 8 8 = b ∧ w.extractLsb' 7 1 = 0#1 ∧ w.extractLsb' 4 3 = r ∧ w.extractLsb' 0 4 = 0xB#4
  | .scanPoll => w.extractLsb' 4 12 = 0#12 ∧ w.extractLsb' 0 4 = 0xC#4
  | .scanWrite n =>
    w.extractLsb' 8 8 = BitVec.ofNat 8 n.val ∧ w.extractLsb' 4 4 = 0#4 ∧ w.extractLsb' 0 4 = 0xD#4
  | _ => False

/-- A result behind a check was accepted by it. -/
theorem ite_error_eq_ok {ε α : Type} {c : Prop} [Decidable c] {x y : α} {e : ε}
    (h : (if c then .ok x else .error e : Except ε α) = .ok y) : c ∧ x = y := by
  split at h
  · next hc => cases h; exact ⟨hc, rfl⟩
  · cases h

/-- What the decoder reads from a word, the word has the fields of (R79, R80). -/
theorem microOpFields_of_decode {w : BitVec 16} {i : Instr} (h : decodeMicroOp w = .ok i) : MicroOpFields w i := by
  have field {k n v : Nat} (hv : (w.extractLsb' k n).toNat = v) : w.extractLsb' k n = BitVec.ofNat n v := by
    rw [← hv, BitVec.ofNat_toNat, BitVec.setWidth_eq]
  unfold decodeMicroOp at h
  split at h
  · next ht =>
    split at h
    · next p hp =>
      obtain ⟨hr, rfl⟩ := ite_error_eq_ok h
      exact ⟨hr, rfl, pinOfCode_eq_some_iff.1 hp, field ht⟩
    · cases h
  · next ht => obtain ⟨hr, rfl⟩ := ite_error_eq_ok h; exact ⟨rfl, hr, field ht⟩
  · next ht => obtain ⟨hr, rfl⟩ := ite_error_eq_ok h; exact ⟨hr, field ht⟩
  · next ht => obtain ⟨hr, rfl⟩ := ite_error_eq_ok h; exact ⟨rfl, hr, rfl, field ht⟩
  · next ht => obtain ⟨hr, rfl⟩ := ite_error_eq_ok h; exact ⟨hr, field ht⟩
  · next ht =>
    split at h
    · next hr =>
      split at h
      · cases h; exact ⟨field rfl, hr, field ht⟩
      · cases h
    · cases h
  · cases h

/-- A word with the fields of a micro-operation is read as it (R79). -/
theorem MicroOpFields.decode {w : BitVec 16} {i : Instr} (h : MicroOpFields w i) : decodeMicroOp w = .ok i := by
  cases i with
  | construct _ | setImageFlat _ | setImagePacked _ | clear _ | stop _ | readBuffer _ => cases h
  | pinWrite p v =>
    obtain ⟨hr, rfl, hp, ht⟩ := h
    simp [decodeMicroOp, ht, hr, pinOfCode_eq_some_iff.2 hp]
  | pushByte b => obtain ⟨rfl, hr, ht⟩ := h; simp [decodeMicroOp, ht, hr]
  | latch | scanPoll => obtain ⟨hr, ht⟩ := h; simp [decodeMicroOp, ht, hr]
  | presentRow r b => obtain ⟨rfl, hr, rfl, ht⟩ := h; simp [decodeMicroOp, ht, hr]
  | scanWrite n =>
    obtain ⟨hn, hr, ht⟩ := h
    have hv : n.val % 256 = n.val := by omega
    simp [decodeMicroOp, ht, hr, hn, hv]

/-- Two fields side by side in a word, by each of them. -/
theorem append_eq_extractLsb'_iff {m n k l : Nat} {x : BitVec m} {y : BitVec n} {w : BitVec l} :
    x ++ y = w.extractLsb' k (m + n) ↔ w.extractLsb' (k + n) m = x ∧ w.extractLsb' k n = y := by
  rw [← BitVec.extractLsb'_append_extractLsb'_eq_extractLsb' rfl]
  constructor
  · intro h
    have hl := congrArg (BitVec.extractLsb' n m) h
    have hr := congrArg (BitVec.extractLsb' 0 n) h
    rw [BitVec.extractLsb'_append_eq_left, BitVec.extractLsb'_append_eq_left] at hl
    rw [BitVec.extractLsb'_append_eq_right, BitVec.extractLsb'_append_eq_right] at hr
    exact ⟨hl.symm, hr.symm⟩
  · rintro ⟨rfl, rfl⟩
    rfl

/-- A one-bit field, by its bit. -/
theorem extractLsb'_one_eq_ofBool_iff {l k : Nat} {w : BitVec l} {v : Bool} :
    w.extractLsb' k 1 = BitVec.ofBool v ↔ w.getLsbD k = v := by
  have h : w.extractLsb' k 1 = BitVec.ofBool (w.getLsbD k) := by
    ext i hi
    simp [show i = 0 by omega]
  rw [h]
  cases w.getLsbD k <;> cases v <;> decide

/-- The unit of a word that ends in a UTAG, by the word's two parts (R79). -/
theorem microOp_append_eq_iff {x : BitVec 12} {tag : BitVec 4} {w : BitVec 16} :
    CodeUnit.microOp (x ++ tag) = .microOp w ↔ w.extractLsb' 4 12 = x ∧ w.extractLsb' 0 4 = tag := by
  have h := append_eq_extractLsb'_iff (x := x) (y := tag) (w := w) (k := 0)
  rw [BitVec.extractLsb'_eq_self] at h
  exact CodeUnit.microOp.injEq _ _ ▸ h

/-- The encoder writes a word for a micro-operation exactly where the word has its fields (R79). -/
theorem encode_eq_microOp_iff {w : BitVec 16} {i : Instr} : encode i = .microOp w ↔ MicroOpFields w i := by
  cases i with
  | pinWrite p v =>
    refine microOp_append_eq_iff.trans ?_
    rw [eq_comm, append_eq_extractLsb'_iff, eq_comm, append_eq_extractLsb'_iff,
      extractLsb'_one_eq_ofBool_iff, and_assoc, and_assoc]
    rfl
  | presentRow r b =>
    refine microOp_append_eq_iff.trans ?_
    rw [eq_comm, append_eq_extractLsb'_iff, eq_comm, append_eq_extractLsb'_iff, and_assoc, and_assoc]
    rfl
  | pushByte _ | scanWrite _ =>
    refine microOp_append_eq_iff.trans ?_
    rw [eq_comm, append_eq_extractLsb'_iff, and_assoc]
    rfl
  | latch | scanPoll => exact microOp_append_eq_iff
  | _ => simp [encode, encodeCommand, MicroOpFields]

/-- The decoder reads exactly the words the encoder writes (R79, R80). -/
theorem decodeMicroOp_eq_ok_iff_encode {w : BitVec 16} {i : Instr} :
    decodeMicroOp w = .ok i ↔ encode i = .microOp w :=
  ⟨fun h => encode_eq_microOp_iff.2 (microOpFields_of_decode h), fun h => (encode_eq_microOp_iff.1 h).decode⟩

/-- A field of a word by its value. -/
theorem extractLsb'_eq_iff_toNat {l k n : Nat} {w : BitVec l} {x : BitVec n} :
    w.extractLsb' k n = x ↔ w.toNat / 2 ^ k % 2 ^ n = x.toNat := by
  rw [← BitVec.toNat_inj, BitVec.extractLsb'_toNat, Nat.shiftRight_eq_div_pow]

/-- The reserved micro-operation words, by the values of their fields (R79, R80). -/
def MicroOpReserved (w : BitVec 16) : Prop :=
  w.toNat % 16 < 8 ∨ 14 ≤ w.toNat % 16 ∨
    (w.toNat % 16 = 8 ∧ (w.toNat / 16 % 4 = 3 ∨ w.toNat / 128 ≠ 0)) ∨
    (w.toNat % 16 = 9 ∧ w.toNat / 16 % 16 ≠ 0) ∨
    (w.toNat % 16 = 10 ∧ w.toNat / 16 ≠ 0) ∨
    (w.toNat % 16 = 11 ∧ w.toNat / 128 % 2 ≠ 0) ∨
    (w.toNat % 16 = 12 ∧ w.toNat / 16 ≠ 0) ∨
    (w.toNat % 16 = 13 ∧ (w.toNat / 16 % 16 ≠ 0 ∨ 50 ≤ w.toNat / 256))

/-- A word with the fields of a micro-operation is not reserved. -/
theorem MicroOpFields.not_reserved {w : BitVec 16} {i : Instr} (h : MicroOpFields w i) : ¬MicroOpReserved w := by
  have hw := w.isLt
  unfold MicroOpReserved
  cases i with
  | construct _ | setImageFlat _ | setImagePacked _ | clear _ | stop _ | readBuffer _ => cases h
  | pinWrite p v =>
    have hc : (pinCode p).toNat < 3 := by cases p <;> decide
    simp only [MicroOpFields, extractLsb'_eq_iff_toNat, BitVec.toNat_ofNat] at h
    omega
  | _ =>
    simp only [MicroOpFields, extractLsb'_eq_iff_toNat, BitVec.toNat_ofNat] at h
    omega

/-- A reserved micro-operation word is no instruction (R80). -/
theorem decodeMicroOp_of_reserved {w : BitVec 16} (h : MicroOpReserved w) : ∃ e, decodeMicroOp w = .error e := by
  cases hd : decodeMicroOp w with
  | error e => exact ⟨e, rfl⟩
  | ok i => exact absurd h (microOpFields_of_decode hd).not_reserved

/-! ### Both formats -/

/-- Settles O1: a command is read back by its header's fields, a micro-operation because the decoder reads exactly
the words the encoder writes. -/
theorem decodeOfEncode : Obligations.DecodeOfEncode := by
  intro i h
  cases i with
  | construct _ | setImageFlat _ | setImagePacked _ | clear _ | stop _ | readBuffer _ =>
    exact decodeCommand_encodeHeader rfl h
  | latch | scanPoll => rfl
  | pinWrite _ _ | pushByte _ | presentRow _ _ | scanWrite _ => exact decodeMicroOp_eq_ok_iff_encode.2 rfl

/-- Only a command's payload count can be out of range (R71). -/
theorem wellFormed_of_encode_microOp {i : Instr} {w : BitVec 16} (h : encode i = .microOp w) :
    i.wellFormed = true := by
  cases i with
  | construct _ | setImageFlat _ | setImagePacked _ | clear _ | stop _ | readBuffer _ => cases h
  | _ => rfl

/-- Settles O2, by the inversion of the decoder in each format. -/
theorem encodeOfDecode : Obligations.EncodeOfDecode := by
  intro u i h
  cases u with
  | command words => exact encode_of_decodeCommand h
  | microOp w =>
    have he := decodeMicroOp_eq_ok_iff_encode.1 h
    exact ⟨he, wellFormed_of_encode_microOp he⟩

/-- Settles O3: each word is closed and the decoder reads it by computing. -/
theorem specWordsDecode : Obligations.SpecWordsDecode := by
  unfold Obligations.SpecWordsDecode
  decide

end Sys2Proof
end

section
/-! PROOFS. What a step makes of a unit of either format (00_scope.md R10, 30_encoding.md R72, R76 to R83): a
delivery, a micro-operation word given alone, an opcode-table word placed; and what a step answers. -/

namespace Sys2Proof.Machine

/-! ### Deliveries that are no command -/

/-- At a HOST turn with no command in progress and a delivery next, the step is that delivery. -/
theorem fetch_of_delivery {s s' : State} {words : List Word} {rest : List Input} (hs : HostTurnIs s s')
    (hb : s.busy = none) (hi : s'.inputs = .command words :: rest) :
    fetch s = fetchDelivery words { s' with inputs := rest } := by
  have hb' : s'.busy = none := by
    obtain ⟨-, -, -, -, hk, -⟩ := hs.same
    exact hk.trans hb
  rw [fetch_of_hostTurn hs, fetchInput_command hb' hi]

/-- Settles O33: the decoder finds the reserved TAG or the reserved bits, and either is a REJECTED of the state that
the turn left. -/
theorem reservedHeaderIsRejected : Obligations.ReservedHeaderIsRejected := by
  intro s s' h payload rest hs hb hi hl hr
  have hf := fetch_of_delivery hs hb hi
  have ho : s'.outputs = s.outputs := by
    obtain ⟨-, -, -, -, -, ho, -⟩ := hs.same
    exact ho
  obtain hd | hd := decodeCommand_reserved hl hr <;>
    simp [step, hf, fetchDelivery, hd, State.raise_rejected, ho]

/-- Settles O34: the decoder finds the wrong count first. -/
theorem transportErrorRefused : Obligations.TransportErrorRefused := by
  intro s s' words rest hs hb hi hw
  simp [step, fetch_of_delivery hs hb hi, fetchDelivery, decodeCommand_transport hw]

/-! ### Micro-operation words given alone -/

/-- A micro-operation word is performed before anything else. -/
theorem fetch_of_uop {s : State} {w : BitVec 16} (hu : s.uop = some w) :
    fetch s = fetchMicroOp w { s with uop := none } := by
  simp [fetch, hu]

/-- Settles O31: the word is fetched first, and read by the decoder. -/
theorem stepRunsMicroOpWord : Obligations.StepRunsMicroOpWord := by
  intro s w i hu hd
  simp [step, fetch_of_uop hu, fetchMicroOp, hd]

/-- Settles O4: a reserved word has no operation's fields, so that the decoder reads none from it. -/
theorem reservedMicroOpRefused : Obligations.ReservedMicroOpRefused := by
  intro s w hu hr
  obtain ⟨e, hd⟩ := decodeMicroOp_of_reserved hr
  simp [step, fetch_of_uop hu, fetchMicroOp, hd]

/-! ### Opcode-table words -/

/-- What agent `a` needs to have a step (R10, R170). -/
def AgentCan (s : State) : Agent → Prop
  | .host => s.busy ≠ none ∨ s.inputs ≠ [] ∨ s.endless = true
  | .engine => s.block.constructed = true ∧ s.block.engActive = true

/-- An agent that can move and is given the turn takes the next step, and giving it leaves no trace. -/
theorem turnIs_giveTurn {s : State} {a : Agent} (hu : s.uop = none) (ha : AgentCan s a) :
    TurnIs (s.giveTurn a) a s := by
  unfold State.giveTurn
  split
  · next h =>
    obtain ⟨hh, he⟩ := by simpa only [Bool.and_eq_true] using h
    exact ⟨hu, .inr (.inr (.inl ⟨s.hostReady_iff.1 hh, s.engineReady_iff.1 he, s.turns, rfl, rfl⟩))⟩
  · next h =>
    rw [Bool.and_eq_true, s.hostReady_iff, s.engineReady_iff] at h
    refine ⟨hu, ?_⟩
    cases a with
    | host => exact .inl ⟨ha, fun he => h ⟨ha, he⟩, rfl, rfl⟩
    | engine => exact .inr (.inl ⟨fun hh => h ⟨hh, ha⟩, ha, rfl, rfl⟩)

/-- `s` with a delivery first among its inputs, and no word or command in progress before it. -/
def State.withDelivery (s : State) (words : List Word) : State :=
  { s with uop := none, busy := none, inputs := .command words :: s.inputs }

theorem hostTurnIs_withDelivery (s : State) (words : List Word) :
    HostTurnIs ((s.withDelivery words).giveTurn .host) (s.withDelivery words) :=
  have hi : (s.withDelivery words).inputs ≠ [] := List.cons_ne_nil _ _
  ⟨_, turnIs_giveTurn rfl (.inr (.inl hi)), .inl ⟨.inl hi, rfl⟩⟩

/-- A command placed is the HOST's next delivery, and its step takes it (R72; log 9). -/
theorem step_placeUnit_command {words : List Word} {i : Instr} (hd : decodeCommand words = .ok i) (s : State) :
    step (placeUnit (.command words) s) = exec i { s with uop := none, busy := none } := by
  have hs := hostTurnIs_withDelivery s words
  have hb : ((s.withDelivery words).giveTurn .host).busy = none := by
    obtain ⟨-, -, -, -, hk, -⟩ := hs.same
    exact hk.symm
  exact stepRunsDeliveredCommand _ _ words s.inputs i hs hb rfl hd

/-- An ENGINE that is given the turn performs the sequencer's operation (R170). -/
theorem step_giveTurn_engine {s : State} (hu : s.uop = none) (hc : s.block.constructed = true)
    (he : s.block.engActive = true) : step (s.giveTurn .engine) = exec s.block.scanOp s := by
  simp [step, fetch_of_turn (turnIs_giveTurn hu (a := .engine) ⟨hc, he⟩), fetchTurn, fetchEngine]

/-- SCAN_POLL placed: the sequencer stands at a row boundary (R170; log 9). -/
theorem step_placeUnit_scanPoll {w : BitVec 16} (hd : decodeMicroOp w = .ok .scanPoll) (s : State) :
    step (placeUnit (.microOp w) s) = exec .scanPoll { s with
      uop := none, block := { s.block with constructed := true, engActive := true, mpc := 0 } } := by
  rw [placeUnit, hd]
  exact step_giveTurn_engine rfl rfl rfl

/-- SCAN_WRITE(n) placed: the sequencer stands at n + 1 (R170; log 9). -/
theorem step_placeUnit_scanWrite {w : BitVec 16} {n : Fin 50} (hd : decodeMicroOp w = .ok (.scanWrite n)) (s : State) :
    step (placeUnit (.microOp w) s) = exec (.scanWrite n) { s with
      uop := none, block := { s.block with constructed := true, engActive := true, mpc := n.succ } } := by
  rw [placeUnit, hd]
  exact step_giveTurn_engine rfl rfl rfl

/-- A word placed as it is, is performed alone (log 8). -/
theorem step_withUop {w : BitVec 16} {i : Instr} (hd : decodeMicroOp w = .ok i) (s : State) :
    step { s with uop := some w } = exec i { s with uop := none } :=
  stepRunsMicroOpWord { s with uop := some w } w i rfl hd

theorem decode_tableUnit {nbits w : Nat} {i : Instr} (h : decodeTableWord nbits w = some i) :
    decode (tableUnit nbits w) = .ok i := by
  unfold decodeTableWord at h
  split at h
  · next hd => cases h; exact hd
  · cases h

/-- Settles O37, by what placing a unit of each kind makes the next step. -/
theorem placedWordRunsNext : Obligations.PlacedWordRunsNext := by
  intro s nbits w i h
  replace h := decode_tableUnit h
  unfold State.withFetchWord
  generalize tableUnit nbits w = u at h
  cases u with
  | command words =>
    obtain ⟨_, p, -, -, -, hc⟩ := decodeCommand_ok h
    have hp := step_placeUnit_command h s
    obtain ⟨-, rfl⟩ | ⟨-, rfl⟩ | ⟨-, rfl⟩ | ⟨-, rfl⟩ | ⟨-, rfl⟩ | ⟨-, rfl⟩ := commandOfTag_eq_some hc <;> exact hp
  | microOp w =>
    have hd : decodeMicroOp w = .ok i := h
    cases i with
    | construct _ | setImageFlat _ | setImagePacked _ | clear _ | stop _ | readBuffer _ =>
      cases microOpFields_of_decode hd
    | scanPoll => exact step_placeUnit_scanPoll hd s
    | scanWrite n => exact step_placeUnit_scanWrite hd s
    | pinWrite _ _ | pushByte _ | latch | presentRow _ _ =>
      have hp := step_withUop hd s
      simpa [placeUnit, hd] using hp

/-! ### Responses -/

/-- From `s` to `t` there is no response or one, its status 0, 1 or 2 and with data only after OK (R76, R77). -/
def AnswersAtMostOnce (s t : State) : Prop :=
  t.outputs = s.outputs ∨
    ∃ (status : Word) (data : List Word), t.outputs = s.outputs ++ [status :: data] ∧ status.toNat < 3 ∧
      (status ≠ 0 → data = [])

theorem State.respond_ok_answers (s : State) (data : List Word) : AnswersAtMostOnce s (s.respond .ok data) :=
  .inr ⟨0, data, by simp, by decide, fun h => absurd rfl h⟩

theorem State.raise_answers (s : State) (e : CommandError) : AnswersAtMostOnce s (s.raise e) :=
  .inr ⟨statusWord e.status, [], by simp, by cases e <;> simp [CommandError.status], fun _ => rfl⟩

/-- Answering nothing, or OK alone, is answering at most once. -/
theorem answersAtMostOnce_of_ok {s t : State} (h : t.outputs = s.outputs ∨ t.outputs = s.outputs ++ [[0]]) :
    AnswersAtMostOnce s t :=
  h.imp id fun h => ⟨0, [], h, by decide, fun _ => rfl⟩

theorem State.replacementStep_answers (s : State) (r : Replacement) : AnswersAtMostOnce s (s.replacementStep r) := by
  obtain ⟨-, -, -, -, -, -, -, -, ho⟩ := s.replacementStep_frame r
  exact answersAtMostOnce_of_ok ho

theorem State.replaceBuffer_answers (s : State) (v : Rows) (startScan : Bool) :
    AnswersAtMostOnce s (s.replaceBuffer v startScan) := by
  obtain ⟨-, -, -, -, -, -, -, -, ho⟩ := s.replaceBuffer_frame v startScan
  exact answersAtMostOnce_of_ok ho

/-- A delivered command answers once, or nothing yet (R130, R137). -/
theorem exec_command_answers {i : Instr} {s t : State} {words : List Word} (hd : decodeCommand words = .ok i)
    (h : exec i s = .next t) : AnswersAtMostOnce s t := by
  obtain ⟨-, ⟨e, rfl⟩ | ⟨-, ds, stcp, shcp, rfl⟩ | ⟨-, v, b, rfl⟩ | ⟨-, rfl⟩ | ⟨-, rfl⟩⟩ := exec_command_next hd h
  · exact s.raise_answers e
  · exact State.respond_ok_answers { s with block := Block.afterConstruct ds stcp shcp } []
  · exact s.replaceBuffer_answers v b
  · exact State.respond_ok_answers { s with block := s.block.stopScan } []
  · exact s.respond_ok_answers _

/-- A micro-operation answers nothing (R100, R179). -/
theorem exec_microOp_outputs {i : Instr} {s t : State} {w : BitVec 16} (hd : decodeMicroOp w = .ok i)
    (h : exec i s = .next t) : t.outputs = s.outputs := by
  cases i with
  | construct _ | setImageFlat _ | setImagePacked _ | clear _ | stop _ | readBuffer _ =>
    cases microOpFields_of_decode hd
  | pinWrite _ _ => cases h; rfl
  | pushByte _ | latch => cases h; exact s.pinWrites_outputs _
  | presentRow r b =>
    rw [exec_presentRow] at h
    cases h; exact s.pinWrites_outputs _
  | scanPoll =>
    obtain ⟨-, -, -, ⟨-, -, rfl⟩ | ⟨-, rfl⟩⟩ := exec_scanPoll_next h <;> rfl
  | scanWrite n =>
    obtain ⟨-, -, -, rfl⟩ := exec_scanWrite_next h
    rfl

/-- The sequencer's operation answers nothing (R179). -/
theorem exec_scanOp_outputs {s t : State} (h : exec s.block.scanOp s = .next t) : t.outputs = s.outputs := by
  obtain ⟨-, -, ⟨-, -, -, rfl⟩ | ⟨-, -, rfl⟩ | ⟨n, -, rfl⟩⟩ := exec_scanOp_next h <;> rfl

/-- A HOST turn answers nothing, so that what follows it answers as from its start. -/
theorem HostTurnIs.answers {s s' t : State} (hs : HostTurnIs s s') (h : AnswersAtMostOnce s' t) :
    AnswersAtMostOnce s t := by
  obtain ⟨-, -, -, -, -, ho, -⟩ := hs.same
  unfold AnswersAtMostOnce at h ⊢
  rwa [ho] at h

/-- Settles O41, by what a step that answers a next state can have done: only the HOST's steps respond, each at most
once. -/
theorem stepAnswersAtMostOnce : Obligations.StepAnswersAtMostOnce := by
  intro s t h
  change AnswersAtMostOnce s t
  obtain ⟨w, i, -, hd, hx⟩ | ⟨s', r, inputs, hs, -, -, rfl⟩ | ⟨s', k, rest, hs, -, rfl⟩ |
    ⟨s', words, rest, i, hs, -, -, hd, hx⟩ | ⟨s', words, rest, reason, hs, -, -, rfl⟩ | ⟨s', hs, hx⟩ |
    ⟨-, -, rfl⟩ := step_next h
  · exact .inl (exec_microOp_outputs (s := { s with uop := none }) hd hx)
  · exact hs.answers (({ s' with inputs := inputs }).replacementStep_answers r)
  · exact hs.answers (.inl rfl)
  · exact hs.answers (exec_command_answers (s := { s' with inputs := rest }) hd hx)
  · exact hs.answers (({ s' with inputs := rest }).raise_answers (.rejected reason))
  · obtain ⟨-, -, -, -, -, -, ho, -⟩ := hs.same
    exact .inl ((exec_scanOp_outputs hx).trans ho)
  · exact .inl rfl

end Sys2Proof.Machine
end

section
/-! PROOFS. A row's frame on the wire (30_encoding.md R81, R82). -/

namespace Sys2Proof.Machine

/-- Bit 15 - m of a row's frame: the selector's bits first, each byte from bit 7 (R82). -/
theorem frame_getLsbD (sel col : Byte) (m : Fin 16) :
    (sel ++ col : BitVec 16).getLsbD (15 - m.val) =
      (if m.val < 8 then sel else col).getLsbD (7 - m.val % 8) := by
  rw [append_getLsbD]
  by_cases h : m.val < 8
  · rw [if_neg (show ¬ 15 - m.val < 8 by omega), if_pos h, show 15 - m.val - 8 = 7 - m.val % 8 by omega]
  · rw [if_pos (show 15 - m.val < 8 by omega), if_neg h, show 15 - m.val = 7 - m.val % 8 by omega]

/-- The three writes of the frame's m-th bit, DS and an SHCP pulse (R81). -/
theorem seqW_bit (sel col : Byte) (m : Fin 16) :
    seqW sel col ⟨3 * m.val, by omega⟩ = (.ds, (if m.val < 8 then sel else col).getLsbD (7 - m.val % 8)) ∧
      seqW sel col ⟨3 * m.val + 1, by omega⟩ = (.shcp, false) ∧
      seqW sel col ⟨3 * m.val + 2, by omega⟩ = (.shcp, true) := by
  fin_cases m <;> exact ⟨rfl, rfl, rfl⟩

/-- Settles O23: a row's writes come in threes, one for each bit of the frame. -/
theorem frameGoesOutFromBit15 : Obligations.FrameGoesOutFromBit15 := by
  intro sel col
  refine ⟨fun m => ?_, rfl, rfl⟩
  rw [frame_getLsbD]
  exact seqW_bit sel col m

end Sys2Proof.Machine
end

section
/-! PROOFS. The link operations (40_link.md R101 to R108): what each one makes of the levels, the history and the
cascade, and the pulses of a row presentation. -/

namespace Sys2Proof.Machine

/-! ### One pin write -/

/-- Driving a line as one update of the block (R101). -/
theorem Block.drive_eq (b : Block) (p : Pin) (v : Level) :
    b.drive p v =
      { b with
        lvlDs := if p = .ds then v else b.lvlDs
        lvlShcp := if p = .shcp then v else b.lvlShcp
        lvlStcp := if p = .stcp then v else b.lvlStcp
        trace := b.trace ++ [(p, v)] } := by
  cases p <;> rfl

/-- The stages shift DS in exactly at a rise of SHCP (R220; log 12). -/
theorem Cascade.observe_sr (c : Cascade) (b : Block) (p : Pin) (v : Level) :
    (c.observe b p v).sr =
      if p = .shcp ∧ v = true ∧ b.lvlShcp = false then (c.sr <<< 1) ||| (BitVec.ofBool b.lvlDs).setWidth 16
      else c.sr := by
  rw [← shift_eq]
  cases p with
  | ds => rfl
  | shcp => cases v <;> cases h : b.lvlShcp <;> simp [Cascade.observe, h]
  | stcp => cases v <;> cases h : b.lvlStcp <;> simp [Cascade.observe, h]

/-- The outputs take over the stages exactly at a rise of STCP (R220; log 12). -/
theorem Cascade.observe_q (c : Cascade) (b : Block) (p : Pin) (v : Level) :
    (c.observe b p v).q = if p = .stcp ∧ v = true ∧ b.lvlStcp = false then c.sr else c.q := by
  cases p with
  | ds => rfl
  | shcp => cases v <;> cases h : b.lvlShcp <;> simp [Cascade.observe, h]
  | stcp => cases v <;> cases h : b.lvlStcp <;> simp [Cascade.observe, h]

/-- Settles O17, by the block's update and the cascade's two registers, each by its own lemma. -/
theorem pinWriteDrivesOneLine : Obligations.PinWriteDrivesOneLine := by
  intro s p v
  obtain ⟨-, -, hport, hout⟩ := s.pinWrites_frame [(p, v)]
  exact ⟨s.pinWrite p v, exec_pinWrite p v s, s.block.drive_eq p v, s.cascade.observe_sr s.block p v,
    s.cascade.observe_q s.block p v, hout, hport⟩

/-! ### The latch pulse -/

/-- Settles O19, by what a latch pulse comes to and the frame of pin writes. -/
theorem latchPulsesStcp : Obligations.LatchPulsesStcp := by
  intro s
  obtain ⟨-, -, hport, hout⟩ := s.pinWrites_frame latchWrites
  refine ⟨s.pinWrites latchWrites, exec_latch s, ?_, ?_, hout, hport⟩ <;> rw [State.pinWrites_latch]

/-! ### The row presentation -/

/-- Settles O20: the one-hot byte is the selector, and a row's writes are seqW's. -/
theorem presentRowIsSeqW : Obligations.PresentRowIsSeqW := by
  intro s r b sel hsel
  obtain rfl := eq_selector_of_toNat hsel
  obtain ⟨-, -, hport, hout⟩ := s.pinWrites_frame (rowWrites (selector r) b)
  refine ⟨s.pinWrites (rowWrites (selector r) b), exec_presentRow r b s, ?_, hout, hport⟩
  rw [State.pinWrites_row, rowWrites_eq_ofFn]

theorem byteWrites_fst_ne_stcp {b : Byte} {e : Pin × Level} (h : e ∈ byteWrites b) : e.1 ≠ .stcp := by
  obtain ⟨i, -, hi⟩ := List.mem_flatMap.1 h
  obtain rfl | rfl | rfl : e = (.ds, b.getLsbD i) ∨ e = (.shcp, false) ∨ e = (.shcp, true) := by
    simpa [pulse] using hi
  all_goals exact Pin.noConfusion

/-- Of a byte's writes eight drive SHCP to each level, one for each bit (R102, R107). -/
theorem byteWrites_countP_shcp (b : Byte) (v : Level) : (byteWrites b).countP (fun e => e == (.shcp, v)) = 8 := by
  cases v <;> rfl

/-- The three writes of a byte's m-th bit, counted from bit 7 (R102). -/
theorem byteWrites_getElem? (b : Byte) (m : Fin 8) :
    (byteWrites b)[3 * m.val]? = some (.ds, b.getLsbD (7 - m.val)) ∧
      (byteWrites b)[3 * m.val + 1]? = some (.shcp, false) ∧
      (byteWrites b)[3 * m.val + 2]? = some (.shcp, true) := by
  fin_cases m <;> exact ⟨rfl, rfl, rfl⟩

/-- Settles O21: what is appended is the selector's writes, the byte's and the latch pulse, each of the first two with
its eight SHCP pulses. -/
theorem presentRowPulseCounts : Obligations.PresentRowPulseCounts := by
  intro s t r b h
  rw [exec_presentRow] at h
  cases h
  have hcount (v : Level) :
      (byteWrites (selector r) ++ byteWrites b).countP (fun e => e == (.shcp, v)) = 16 := by
    rw [List.countP_append, byteWrites_countP_shcp, byteWrites_countP_shcp]
  refine ⟨byteWrites (selector r), byteWrites b, ?_, byteWrites_length _, byteWrites_length _, fun e he => ?_,
    hcount true, hcount false, fun m => ?_⟩
  · simp [rowWrites, latchWrites, pulse]
  · obtain he | he := List.mem_append.1 he <;> exact byteWrites_fst_ne_stcp he
  · obtain ⟨hds, hlow, hhigh⟩ := byteWrites_getElem? (selector r) m
    rw [selector_bit r _ (by omega)] at hds
    exact ⟨hds, hlow, hhigh, byteWrites_getElem? b m⟩

/-! ### The levels afterwards -/

/-- Settles O22: each operation is a list of pin writes, which change only the pins, and what the list comes to gives
the levels. -/
theorem levelsAfterLinkOps : Obligations.LevelsAfterLinkOps := by
  intro s p v r b
  have only (l : List (Pin × Level)) : OnlyPins s.block (s.pinWrites l).block := (s.pinWrites_frame l).1
  refine ⟨⟨_, exec_pinWrite p v s, only [(p, v)], ?_⟩, ⟨_, exec_pushByte b s, only _, ?_⟩,
    ⟨_, exec_latch s, only _, ?_⟩, ⟨_, exec_presentRow r b s, only _, ?_⟩⟩
  · rw [State.pinWrite_block, Block.drive_eq]
    exact ⟨rfl, rfl, rfl⟩
  · rw [State.pinWrites_byte]
    exact ⟨rfl, rfl, rfl⟩
  · rw [State.pinWrites_latch]
    exact ⟨rfl, rfl, rfl⟩
  · rw [State.pinWrites_row]
    exact ⟨rfl, rfl, rfl⟩

/-! ### The engine's row -/

/-- With nothing from the HOST, an engine at a row boundary where no request is honoured starts the row (R171). -/
theorem step_engineAlone_startRow {s : State} (ha : EngineAlone s) (hc : s.block.constructed = true)
    (he : s.block.engActive = true) (hm : s.block.mpc = 0)
    (hp : polls s.params.cancelPoll s.block.row = false ∨ s.block.cancel = false) :
    step s = .next { s with block := s.block.startRow } := by
  obtain ⟨-, hop⟩ | ⟨n, hn, -⟩ := s.block.scanOp_cases
  · rw [step_engineAlone ha hc he, hop, exec_scanPoll_start hc he hm hp]
  · exact absurd (hn.symm.trans hm) (Fin.succ_ne_zero n)

/-- 51 steps of an engine alone from a row boundary where no request is honoured are the start of the row, its fifty
writes and the next row's boundary (R171 to R173). -/
theorem runSteps_row {s : State} (ha : EngineAlone s) (hc : s.block.constructed = true)
    (he : s.block.engActive = true) (hm : s.block.mpc = 0)
    (hp : polls s.params.cancelPoll s.block.row = false ∨ s.block.cancel = false) :
    runSteps 51 s =
      .next ((({ s with block := s.block.startRow }).pinWrites
        (rowWrites (selector s.block.row) (s.block.bufRead s.block.row))).atSeq (s.block.row + 1) 0) := by
  have hstart : runSteps 1 s = .next { s with block := s.block.startRow } := by
    simp only [runSteps, step_engineAlone_startRow ha hc he hm hp]
  rw [runSteps_add 50 hstart]
  exact runSteps_rest (m := 0) (by omega) rfl ha hc he

/-- Settles O49: both sides are the fifty writes of the row, from states that differ only in the frame and the
sequencer. -/
theorem engineRowIsPresentRow : Obligations.EngineRowIsPresentRow := by
  intro s ha hc he hm hx
  have hp : polls s.params.cancelPoll s.block.row = false ∨ s.block.cancel = false := by
    obtain hx | ⟨hcycle, hrow⟩ := hx
    · exact .inr hx
    · exact .inl (Bool.eq_false_iff.2 (mt (polls_iff _ _).1 (not_or.2 ⟨by simp [hcycle], hrow⟩)))
  refine ⟨_, _, exec_presentRow _ _ s, runSteps_row ha hc he hm hp, ?_⟩
  rw [State.pinWrites_row, State.pinWrites_row, State.atSeq]
  simp [Block.startRow, selector, hm]

end Sys2Proof.Machine
end

section
/-! PROOFS. The producer commands in one step (41_driver.md R130 to R136): CONSTRUCT, the replacements of the buffer
with BUFFER_WRITE_MODE = atomic, and READ_BUFFER. -/

namespace Sys2Proof.Machine

/-! ### CONSTRUCT -/

/-- With no command in progress a command always answers (R130). -/
theorem State.runCommand_answers {s : State} (hb : s.busy = none) (checks : List (Option CommandError))
    (effect : State → State) : ∃ t, s.runCommand checks effect = .next t := by
  obtain ⟨hk, -⟩ | ⟨-, e, -, hr⟩ | ⟨-, -, hr⟩ := s.runCommand_cases checks effect
  · simp [hb] at hk
  · exact ⟨_, hr⟩
  · exact ⟨_, hr⟩

theorem pinsDistinct_iff (ds stcp shcp : Word) :
    pinsDistinct [ds, stcp, shcp] = true ↔ ds ≠ stcp ∧ ds ≠ shcp ∧ stcp ≠ shcp := by
  simp [pinsDistinct, and_assoc]

/-- Every row is 0x00 after CONSTRUCT (R36). -/
theorem Block.afterConstruct_bufRead (ds stcp shcp : Word) (r : Row) :
    (Block.afterConstruct ds stcp shcp).bufRead r = 0x00 := by
  revert r
  show ∀ r : Row, (#v[0, 0, 0, 0, 0, 0, 0, 0] : Rows)[r.toNat]'r.isLt = 0x00
  decide

/-- A command that changes the block and answers changes nothing else (R130). -/
theorem State.respond_sameOutside (s : State) (b : Block) (st : Status) (data : List Word) :
    SameOutside s (({ s with block := b }).respond st data) :=
  ⟨rfl, rfl, rfl, rfl, rfl, rfl, rfl, rfl, rfl, rfl⟩

/-- Settles O5: the checks pass, and the effect is the block of R36 and the response. -/
theorem constructResetsBlock : Obligations.ConstructResetsBlock := by
  intro s ds stcp shcp hb hc h1 h2 h3
  refine ⟨_, exec_construct_ok hb hc rfl ((pinsDistinct_iff ds stcp shcp).2 ⟨h1, h2, h3⟩), rfl, rfl, rfl, rfl, rfl,
    rfl, rfl, Block.afterConstruct_bufRead ds stcp shcp, rfl, rfl, rfl, rfl, rfl, rfl, rfl, rfl, rfl, rfl, ?_,
    s.respond_sameOutside _ .ok []⟩
  simp

/-- Settles O6: CONSTRUCT answers, and what it answers is an error or asks for what each of the three causes denies. -/
theorem constructRejected : Obligations.ConstructRejected := by
  intro s payload hb hcause
  obtain ⟨t, ht⟩ : ∃ t, execConstruct payload s = .next t := State.runCommand_answers hb _ _
  change exec (.construct payload) s = .next t at ht
  obtain ⟨-, ⟨r, rfl⟩ | ⟨hc, hl, hd, -⟩⟩ := exec_construct_next ht
  · rw [ht, State.raise_rejected]
  · obtain hc' | hl' | ⟨ds, stcp, shcp, rfl, heq⟩ := hcause
    · simp [hc] at hc'
    · exact absurd hl hl'
    · obtain ⟨h1, h2, h3⟩ := (pinsDistinct_iff ds stcp shcp).1 hd
      obtain h | h | h := heq
      · exact absurd h h1
      · exact absurd h h2
      · exact absurd h h3

/-! ### Replacing the buffer in one step -/

/-- In the atomic mode the replacement is its last sub-step, on the block with the new image (R57). -/
theorem State.replaceBuffer_atomic {s : State} (hm : s.params.bufferWriteMode = .atomic) (v : Rows)
    (startScan : Bool) :
    s.replaceBuffer v startScan = ({ s with block := { s.block with buf := v } }).finishReplacement startScan := by
  simp [State.replaceBuffer, hm]

/-- The end of a replacement with none recorded as in progress changes only the block and the responses (R132). -/
theorem State.finishReplacement_sameOutside {s : State} (hb : s.busy = none) (b : Block) (startScan : Bool) :
    SameOutside s (({ s with block := b }).finishReplacement startScan) :=
  ⟨rfl, rfl, rfl, rfl, hb.symm, rfl, rfl, rfl, rfl, rfl⟩

/-- A new image stored in one step: the rows, the scan started if Idle, the answer, and nothing else (R132, R133). -/
theorem State.replaceBuffer_atomic_image {s : State} (hb : s.busy = none)
    (hm : s.params.bufferWriteMode = .atomic) (v : Rows) :
    let t := s.replaceBuffer v true
    t.block.buf = v ∧ ScanStarted s.block t.block ∧ SamePinSide s.block t.block ∧
      t.outputs = s.outputs ++ [[0]] ∧ SameOutside s t := by
  refine ⟨?_, ?_, (s.replaceBuffer_frame v true).1, ?_, ?_⟩ <;> rw [State.replaceBuffer_atomic hm]
  · simp
  · exact Block.startScanIfIdle_scanStarted { s.block with buf := v }
  · simp
  · exact State.finishReplacement_sameOutside hb _ true

/-- A cell is on iff it is there and is exactly 1 (R78). -/
theorem isOn_getD (cells : List Word) (n : Nat) :
    isOn (cells.getD n 0#32) = decide (cells[n]? = some 1) := by
  rw [List.getD_eq_getElem?_getD]
  cases cells[n]? with
  | none => rfl
  | some w => simp [isOn, Bool.beq_eq_decide_eq]

/-- Settles O7: the new buffer is the packed image, whose bits are the cells' on-ness. -/
theorem setImageFlatReplacesImage : Obligations.SetImageFlatReplacesImage := by
  intro s cells hb hm hc hl
  obtain ⟨hbuf, hrest⟩ := State.replaceBuffer_atomic_image hb hm (packFlat cells)
  refine ⟨_, exec_setImageFlat_ok hb hc hl, fun i j hj => ?_, hrest⟩
  have hbit := packRow_bit cells i.toNat ⟨j, hj⟩
  simp only [Block.bufRead, hbuf, packFlat_row]
  rw [hbit, isOn_getD]

/-- A word that is a byte is its low byte, zero-extended (R133). -/
theorem setWidth_lowByte {w : Word} (h : w.toNat < 256) : (w.extractLsb' 0 8).setWidth 32 = w := by
  apply BitVec.eq_of_toNat_eq
  simp only [BitVec.toNat_setWidth, BitVec.extractLsb'_toNat, Nat.shiftRight_zero]
  omega

/-- Settles O8: each new row is the low byte of its word, which is all of it. -/
theorem setImagePackedReplacesImage : Obligations.SetImagePackedReplacesImage := by
  intro s words hb hm hc hl hbyte
  obtain ⟨hbuf, hrest⟩ := State.replaceBuffer_atomic_image hb hm (packedRows words)
  refine ⟨_, exec_setImagePacked_ok hb hc hl hbyte, fun i => ?_, hrest⟩
  have hi : i.toNat < words.length := hl ▸ i.isLt
  simp only [Block.bufRead, hbuf, packedRows_row, List.getD_eq_getElem _ _ hi]
  rw [setWidth_lowByte (hbyte _ (List.getElem_mem hi)), List.getElem?_eq_getElem hi]

/-- Settles O9: every row of the new image is the fill byte, and the block's other elements are not touched. -/
theorem clearFillsImage : Obligations.ClearFillsImage := by
  intro s w hb hm hc
  refine ⟨_, exec_clear_ok hb hc rfl, ?_⟩
  rw [State.replaceBuffer_atomic hm]
  refine ⟨fun i => ?_, rfl, by simp, State.finishReplacement_sameOutside hb _ false⟩
  exact (fillRows_row w i.toNat i.isLt).trans (fillByte_eq w)

/-! ### READ_BUFFER -/

/-- The row buffer as its eight rows, row 0 first (R21, R76). -/
theorem Block.buf_toList (b : Block) :
    b.buf.toList =
      [b.bufRead 0, b.bufRead 1, b.bufRead 2, b.bufRead 3, b.bufRead 4, b.bufRead 5, b.bufRead 6, b.bufRead 7] := by
  have h : b.buf = Vector.ofFn fun i : Fin 8 => b.buf[i] := by
    ext i hi
    simp
  rw [h, Vector.toList_ofFn]
  rfl

/-- Settles O11: the checks pass, and the answer is the buffer's rows. -/
theorem readBufferAnswersRows : Obligations.ReadBufferAnswersRows := by
  intro s hb hc
  rw [exec_readBuffer_ok hb hc rfl, Block.bufWords, Block.buf_toList, State.respond, statusWord_ok]
  rfl

end Sys2Proof.Machine
end

section
/-! PROOFS. A buffer replacement with BUFFER_WRITE_MODE = per_row (41_driver.md R137): its first sub-step, the
sub-steps after it, and that nine of them end as the one step of the atomic mode does. -/

namespace Sys2Proof.Machine

/-- Settles O16: every HOST command is turned away while a replacement is in progress. -/
theorem noCommandOverlapsReplacement : Obligations.NoCommandOverlapsReplacement := by
  intro s r payload hb i hi
  obtain ⟨h1, h2, h3, h4, h5, h6⟩ := exec_command_busy hb payload
  simp only [List.mem_cons, List.not_mem_nil, or_false] at hi
  obtain rfl | rfl | rfl | rfl | rfl | rfl := hi
  exacts [h1, h2, h3, h4, h5, h6]

/-! ### The row a sub-step writes -/

/-- A sub-step writes the row that the pick selects among those left, and takes it off the list (R137). -/
theorem State.replacementStep_of_pickIs {s s' : State} {r : Replacement} {k : Nat} {row : Row}
    (hp : PickIs s k s') (hrow : r.left[k % r.left.length]? = some row) :
    s.replacementStep r =
      { s' with
        block := s.block.bufWriteRow row (r.rows[row.toNat]'row.isLt)
        busy := some { r with left := r.left.erase row } } := by
  have hl : r.left ≠ [] := by
    intro h
    simp [h] at hrow
  obtain ⟨row', -, hrow', ht⟩ := s.replacementStep_cons r hl
  rw [State.takePick_of_pickIs hp] at hrow' ht
  obtain rfl : row = row' := Option.some.inj (hrow.symm.trans hrow')
  exact ht

/-- With every row left, pick `k` selects row `k`, modulo 8. -/
theorem allRows_getElem? (k : Nat) : allRows[k % allRows.length]? = some (BitVec.ofNat 3 k) := by
  have key : ∀ m : Fin 8, allRows[m.val]? = some (BitVec.ofNat 3 m.val) := by decide
  have hk : BitVec.ofNat 3 (k % 8) = BitVec.ofNat 3 k := BitVec.eq_of_toNat_eq (by simp)
  rw [← hk]
  exact key ⟨k % 8, Nat.mod_lt k (by decide)⟩

/-- In the per_row mode the first step of a replacement is its first sub-step, with every row left (R57, R137). -/
theorem State.replaceBuffer_perRow {s : State} (hm : s.params.bufferWriteMode = .perRow) (v : Rows)
    (startScan : Bool) : s.replaceBuffer v startScan = s.replacementStep ⟨v, allRows, startScan⟩ := by
  simp [State.replaceBuffer, hm]

theorem State.replaceBuffer_perRow_of_pickIs {s s' : State} {k : Nat} (hm : s.params.bufferWriteMode = .perRow)
    (hp : PickIs s k s') (v : Rows) (startScan : Bool) :
    s.replaceBuffer v startScan =
      { s' with
        block := s.block.bufWriteRow (BitVec.ofNat 3 k) (v[(BitVec.ofNat 3 k).toNat]'(BitVec.ofNat 3 k).isLt)
        busy := some ⟨v, allRows.erase (BitVec.ofNat 3 k), startScan⟩ } := by
  rw [State.replaceBuffer_perRow hm]
  exact State.replacementStep_of_pickIs hp (allRows_getElem? k)

/-- Settles O14: each of the three commands passes its checks, and its first sub-step is that of its new image. -/
theorem perRowFirstSubStep : Obligations.PerRowFirstSubStep := by
  intro s s' payload k hb hm hc hp row
  have hfirst := State.replaceBuffer_perRow_of_pickIs hm hp
  refine ⟨fun hl => ?_, fun hl hbyte => ?_, ?_⟩
  · rw [exec_setImageFlat_ok hb hc hl, hfirst]
  · rw [exec_setImagePacked_ok hb hc hl hbyte, hfirst]
  · rintro w rfl
    rw [exec_clear_ok hb hc rfl, hfirst, fillRows_row, ← fillByte_eq]
    rfl

/-! ### The sub-steps after the first -/

/-- Power is not lost at the HOST's step in `s`, which goes on from `s'`: no loss of power comes next, or it is one
sub-step nearer there (log 13). -/
def PowerHolds (s s' : State) : Prop :=
  ((∀ k rest, s.inputs ≠ .powerCycle k :: rest) ∧ s' = s) ∨
    ∃ k rest, s.inputs = .powerCycle (k + 1) :: rest ∧ s' = { s with inputs := .powerCycle k :: rest }

/-- With a replacement in progress that no loss of power cuts off, the HOST's step is its next sub-step (R137). -/
theorem fetchInput_of_powerHolds {s s' : State} {r : Replacement} (hb : s.busy = some r) (h : PowerHolds s s') :
    fetchInput s = .done (s'.replacementStep r) := by
  obtain ⟨hn, rfl⟩ | ⟨k, rest, hi, rfl⟩ := h
  · unfold fetchInput
    rw [hb]
    cases hi : s'.inputs with
    | nil => rfl
    | cons x rest =>
      cases x with
      | command words => rfl
      | powerCycle k => exact absurd hi (hn k rest)
  · simp [fetchInput, hb, hi]

theorem step_replacement {s s₁ s' : State} {r : Replacement} (ht : HostTurnIs s s₁) (hb : s.busy = some r)
    (h : PowerHolds s₁ s') : step s = .next (s'.replacementStep r) := by
  have hb₁ : s₁.busy = some r := by
    obtain ⟨-, -, -, -, hk, -⟩ := ht.same
    exact hk.trans hb
  simp [step, fetch_of_hostTurn ht, fetchInput_of_powerHolds hb₁ h]

/-- A HOST step at which power holds begins with the block and the responses as they were. -/
theorem PowerHolds.same {s s₁ s' : State} (ht : HostTurnIs s s₁) (h : PowerHolds s₁ s') :
    s'.block = s.block ∧ s'.outputs = s.outputs := by
  obtain ⟨hb, -, -, -, -, ho, -⟩ := ht.same
  obtain ⟨-, rfl⟩ | ⟨k, rest, -, rfl⟩ := h <;> exact ⟨hb, ho⟩

/-- Settles O32: the step is a sub-step from the state that the turn and the power still there leave; it writes the
picked row, or ends the command. -/
theorem stepContinuesReplacement : Obligations.StepContinuesReplacement := by
  intro s s₁ s' r ht hb hpower
  have hstep : step s = .next (s'.replacementStep r) := step_replacement ht hb hpower
  obtain ⟨hblock, hout⟩ := PowerHolds.same ht hpower
  rw [hstep, ← hblock, ← hout]
  refine ⟨fun s'' k row hp hrow => ?_, fun hl => ?_⟩
  · rw [State.replacementStep_of_pickIs hp hrow]
  · rw [State.replacementStep_nil s' r hl]
    refine ⟨_, rfl, fun h => ?_, fun h => ?_, ?_⟩
    · rw [h]
      exact ⟨s'.block.startScanIfIdle_scanStarted, s'.block.startScanIfIdle_samePinSide, s'.block.startScanIfIdle_buf⟩
    · rw [h]
      rfl
    · simp [State.finishReplacement, State.respond]

/-! ### A whole replacement, with no other agent between its sub-steps -/

/-- The coming inputs after a sub-step: a loss of power that comes next is one sub-step nearer (log 13). -/
def oneSubStepNearer : List Input → List Input
  | .powerCycle (k + 1) :: rest => .powerCycle k :: rest
  | inputs => inputs

theorem oneSubStepNearer_of_noPowerCycle {inputs : List Input} (h : ∀ k rest, inputs ≠ .powerCycle k :: rest) :
    oneSubStepNearer inputs = inputs := by
  unfold oneSubStepNearer
  split
  · exact absurd rfl (h _ _)
  · rfl

theorem oneSubStepNearer_iterate (n k : Nat) (rest : List Input) :
    oneSubStepNearer^[n] (.powerCycle (k + n) :: rest) = .powerCycle k :: rest := by
  induction n with
  | zero => rfl
  | succ n ih => exact ih

/-- The next `n` steps are the HOST's, power is not lost within them, and what the HOST sees of its inputs is listed
or nothing (R137; log 1, log 13). -/
structure HostHas (s : State) (n : Nat) : Prop where
  noMicroOp : s.uop = none
  constructed : s.block.constructed = true
  turns : s.block.engActive = false ∨ ∃ later, s.turns = List.replicate n .host ++ later
  known : s.inputs = [] → s.endless = false
  powered : ∀ k rest, s.inputs = .powerCycle k :: rest → n ≤ k

/-- `s` with the HOST's turn taken, which is a listed one where the engine could move too. -/
def State.hostTurnTaken (s : State) : State :=
  { s with turns := if s.block.engActive then s.turns.tail else s.turns }

/-- `s` as the next sub-step of a replacement finds it. -/
def State.subStepBegun (s : State) : State := { s.hostTurnTaken with inputs := oneSubStepNearer s.inputs }

theorem HostHas.hostTurnIs {s : State} {n : Nat} {r : Replacement} (h : HostHas s (n + 1)) (hb : s.busy = some r) :
    HostTurnIs s s.hostTurnTaken := by
  have hhost : s.busy ≠ none ∨ s.inputs ≠ [] ∨ s.endless = true := .inl (by simp [hb])
  have hahead : s.inputs ≠ [] ∨ s.endless = false := or_iff_not_imp_left.2 fun hi => h.known (not_not.1 hi)
  refine ⟨s.hostTurnTaken, ⟨h.noMicroOp, ?_⟩, .inl ⟨hahead, rfl⟩⟩
  unfold State.hostTurnTaken
  cases he : s.block.engActive with
  | false => exact .inl ⟨hhost, by simp, rfl, rfl⟩
  | true =>
    obtain hn | ⟨later, hl⟩ := h.turns
    · simp [he] at hn
    · exact .inr (.inr (.inl ⟨hhost, ⟨h.constructed, rfl⟩, s.turns.tail, by simp [hl, List.replicate_succ], rfl⟩))

/-- No loss of power comes next, or not within the next sub-step. -/
theorem HostHas.inputs_cases {s : State} {n : Nat} (h : HostHas s (n + 1)) :
    (∀ k rest, s.inputs ≠ .powerCycle k :: rest) ∨
      ∃ k rest, s.inputs = .powerCycle (k + 1) :: rest ∧ n ≤ k := by
  refine or_iff_not_imp_left.2 fun hp => ?_
  push Not at hp
  obtain ⟨k, rest, hi⟩ := hp
  have hk := h.powered k rest hi
  obtain ⟨m, rfl⟩ : ∃ m, k = m + 1 := ⟨k - 1, by omega⟩
  exact ⟨m, rest, hi, Nat.le_of_succ_le_succ hk⟩

/-- The next step is the replacement's next sub-step. -/
theorem HostHas.step {s : State} {n : Nat} {r : Replacement} (h : HostHas s (n + 1)) (hb : s.busy = some r) :
    step s = .next (s.subStepBegun.replacementStep r) := by
  refine step_replacement (h.hostTurnIs hb) hb ?_
  obtain hp | ⟨k, rest, hi, -⟩ := h.inputs_cases
  · exact .inl ⟨hp, by rw [State.subStepBegun, oneSubStepNearer_of_noPowerCycle hp]; rfl⟩
  · exact .inr ⟨k, rest, hi, by rw [State.subStepBegun, hi]; rfl⟩

theorem HostHas.turns_tail {s : State} {n : Nat} (h : HostHas s (n + 1)) :
    s.hostTurnTaken.block.engActive = false ∨
      ∃ later, s.hostTurnTaken.turns = List.replicate n .host ++ later := by
  cases he : s.block.engActive with
  | false => exact .inl he
  | true =>
    obtain hn | ⟨later, hl⟩ := h.turns
    · simp [he] at hn
    · exact .inr ⟨later, by simp [State.hostTurnTaken, he, hl, List.replicate_succ]⟩

theorem HostHas.subStepBegun {s : State} {n : Nat} (h : HostHas s (n + 1)) : HostHas s.subStepBegun n := by
  obtain hp | ⟨k, rest, hi, hk⟩ := h.inputs_cases
  · have hsame : s.subStepBegun.inputs = s.inputs := oneSubStepNearer_of_noPowerCycle hp
    exact ⟨h.noMicroOp, h.constructed, h.turns_tail, fun hi => h.known (hsame ▸ hi),
      fun k rest hi => absurd (hsame ▸ hi) (hp k rest)⟩
  · have hnearer : s.subStepBegun.inputs = .powerCycle k :: rest := congrArg oneSubStepNearer hi
    refine ⟨h.noMicroOp, h.constructed, h.turns_tail, by simp [hnearer], fun k' rest' hi' => ?_⟩
    obtain ⟨rfl, -⟩ : k = k' ∧ rest = rest' := by simpa [hnearer] using hi'
    exact hk

/-- A sub-step takes none of the HOST's steps to come. -/
theorem HostHas.replacementStep {s : State} {n : Nat} (h : HostHas s n) {r : Replacement} (hl : r.left ≠ []) :
    HostHas (s.replacementStep r) n := by
  obtain ⟨row, -, -, ht⟩ := s.replacementStep_cons r hl
  obtain ⟨hu, hc, hturns, hknown, hpowered⟩ := h
  rw [ht]
  constructor <;> simpa

/-- With no row left to write, the buffer holds the new image (R137). -/
theorem Replacement.Written.buf_eq {r : Replacement} {b : Block} (h : r.Written b) (hl : r.left = []) :
    b.buf = r.rows := by
  refine buf_ext (b' := { b with buf := r.rows }) fun i => ?_
  obtain hi | hi := h i
  · simp [hl] at hi
  · exact hi

/-- Where the replacement `r` from `s` has ended `n` steps after its sub-step there (R137): `v` is `s` with the new
image, the scan started where the command calls for it and the response OK, with nothing in progress and power `n`
sub-steps nearer to its loss. Of the choices nothing is said. -/
structure ReplacementEnded (s : State) (r : Replacement) (n : Nat) (v : State) : Prop where
  block : v.block = if r.startScan then ({ s.block with buf := r.rows }).startScanIfIdle
    else { s.block with buf := r.rows }
  outputs : v.outputs = s.outputs ++ [[0]]
  busy : v.busy = none
  inputs : v.inputs = oneSubStepNearer^[n] s.inputs
  cascade : v.cascade = s.cascade
  params : v.params = s.params

/-- With no row left, a sub-step ends the replacement. -/
theorem replacementEnded_of_nil {s : State} {r : Replacement} (hl : r.left = []) (hw : r.Written s.block) :
    ReplacementEnded s r 0 (s.replacementStep r) := by
  have hbuf : ({ s.block with buf := r.rows } : Block) = s.block := by rw [← hw.buf_eq hl]
  rw [State.replacementStep_nil s r hl]
  exact ⟨by rw [hbuf]; rfl, by simp, rfl, rfl, rfl, rfl⟩

/-- The end does not depend on which rows were written before. -/
theorem ReplacementEnded.of_rowWritten {s v : State} {r : Replacement} {left : List Row} {n : Nat} (hl : r.left ≠ [])
    (h : ReplacementEnded (s.replacementStep r) { r with left := left } n v) : ReplacementEnded s r n v := by
  obtain ⟨row, -, -, ht⟩ := s.replacementStep_cons r hl
  rw [ht] at h
  obtain ⟨hblock, hout, hbusy, hinputs, hcascade, hparams⟩ := h
  exact ⟨hblock, by simpa using hout, hbusy, by simpa using hinputs, by simpa using hcascade, by simpa using hparams⟩

/-- The beginning of a sub-step is one step of those before the end. -/
theorem ReplacementEnded.of_subStepBegun {s v : State} {r : Replacement} {n : Nat}
    (h : ReplacementEnded s.subStepBegun r n v) : ReplacementEnded s r (n + 1) v :=
  ⟨h.block, h.outputs, h.busy, h.inputs, h.cascade, h.params⟩

/-- After a sub-step with `n` rows left to write, `n` more steps end the replacement, whatever order the rows are
written in (R137). -/
theorem HostHas.runSteps_replacement {n : Nat} {s : State} {r : Replacement} (h : HostHas s n)
    (hn : r.left.length = n) (hw : r.Written s.block) :
    ∃ v, runSteps n (s.replacementStep r) = .next v ∧ ReplacementEnded s r n v := by
  induction n generalizing s r with
  | zero => exact ⟨_, rfl, replacementEnded_of_nil (List.eq_nil_of_length_eq_zero hn) hw⟩
  | succ n ih =>
    have hl : r.left ≠ [] := List.ne_nil_of_length_eq_add_one hn
    obtain ⟨row, hmem, -, ht⟩ := s.replacementStep_cons r hl
    have hbusy : (s.replacementStep r).busy = some { r with left := r.left.erase row } := by rw [ht]
    have hblock : (s.replacementStep r).block = s.block.bufWriteRow row (r.rows[row.toNat]'row.isLt) := by rw [ht]
    have hafter : HostHas (s.replacementStep r) (n + 1) := h.replacementStep hl
    obtain ⟨v, hrun, hend⟩ := ih (r := { r with left := r.left.erase row }) hafter.subStepBegun
      (by rw [List.length_erase_of_mem hmem, hn]; rfl) (hblock ▸ hw.writeRow row)
    refine ⟨v, ?_, hend.of_subStepBegun.of_rowWritten hl⟩
    rw [runSteps, hafter.step hbusy]
    exact hrun

/-- The commands that replace the buffer, with their checks passed, come to that (R132 to R134). -/
theorem exec_replacing {i : Instr} (hi : GoodImage i ∨ ∃ w, i = .clear [w]) :
    ∃ v startScan, ∀ s : State, s.busy = none → s.block.constructed = true →
      exec i s = .next (s.replaceBuffer v startScan) := by
  obtain (⟨p, rfl, hl⟩ | ⟨p, rfl, hl, hbyte⟩) | ⟨w, rfl⟩ := hi
  · exact ⟨_, _, fun s hb hc => exec_setImageFlat_ok hb hc hl⟩
  · exact ⟨_, _, fun s hb hc => exec_setImagePacked_ok hb hc hl hbyte⟩
  · exact ⟨_, _, fun s hb hc => exec_clear_ok hb hc rfl⟩

/-- Settles O15: both modes run the same replacement, and the eight steps after the first sub-step end in what the
atomic mode answers. -/
theorem perRowEndsAsAtomic : Obligations.PerRowEndsAsAtomic := by
  intro s t i hi hu hb hc hturns hknown hpowered hm ht
  obtain ⟨image, startScan, hexec⟩ := exec_replacing hi
  have hatomic := hexec { s with params := { s.params with bufferWriteMode := .atomic } } hb hc
  rw [State.replaceBuffer_atomic rfl] at hatomic
  obtain rfl := Host.Outcome.next.inj (hatomic.symm.trans ht)
  have hfirst := hexec s hb hc
  rw [State.replaceBuffer_perRow hm] at hfirst
  have hhas : HostHas s 8 := ⟨hu, hc, hturns, hknown, hpowered⟩
  obtain ⟨v, hrun, hend⟩ := hhas.runSteps_replacement (r := ⟨image, allRows, startScan⟩) rfl
    (Replacement.written_allRows image startScan s.block)
  refine ⟨_, v, hfirst, hrun, hend.block, ?_, hend.busy, fun hp => ?_, fun k rest hp => ?_, hend.cascade, hend.params⟩
  · simpa using hend.outputs
  · rw [hend.inputs, Function.iterate_fixed (oneSubStepNearer_of_noPowerCycle hp)]
  · rw [hend.inputs, hp, oneSubStepNearer_iterate]

end Sys2Proof.Machine
end

section
/-! PROOFS. One step of the scan engine (42_scan.md R170 to R175): what SCAN_POLL and SCAN_WRITE answer, where they
are refused, what they leave alone, and which of them an ENGINE step runs. -/

namespace Sys2Proof.Machine

/-! ### SCAN_POLL -/

/-- An update of the block changes nothing outside it. -/
theorem State.withBlock_sameOutside (s : State) (b : Block) : SameOutside s { s with block := b } :=
  ⟨rfl, rfl, rfl, rfl, rfl, rfl, rfl, rfl, rfl, rfl⟩

/-- Where no cancel request stands, or per_cycle does not test it at this row, none is honoured (R174). -/
theorem nothing_honoured {mode : CancelPoll} {row : Row} {cancel : Bool}
    (h : cancel = false ∨ (mode = .perCycle ∧ row ≠ 0)) : polls mode row = false ∨ cancel = false := by
  obtain hx | ⟨hcycle, hrow⟩ := h
  · exact .inr hx
  · exact .inl (Bool.eq_false_iff.2 (mt (polls_iff mode row).1 (not_or.2 ⟨by simp [hcycle], hrow⟩)))

/-- Settles O25: SCAN_POLL starts the row, with the row's one-hot selector. -/
theorem scanPollCapturesRow : Obligations.ScanPollCapturesRow := by
  intro s hc he hm hx
  exact ⟨_, exec_scanPoll_start hc he hm (nothing_honoured hx), rfl, selector_toNat _, rfl,
    s.withBlock_sameOutside _⟩

/-- Settles O26: SCAN_POLL is OnCancel there, and an active engine stays iff a restart was pending. -/
theorem scanPollHonoursCancel : Obligations.ScanPollHonoursCancel := by
  intro s hc he hm hx hp
  refine ⟨_, exec_scanPoll_cancel hc he hm ((polls_iff _ _).2 hp) hx, ?_, rfl, s.withBlock_sameOutside _⟩
  simp [Block.onCancel_eq, he]

/-! ### SCAN_WRITE -/

/-- The place after write n of a row (R173). -/
theorem val_succ_add_one {n : Fin 50} (hn : n ≠ 49) : (n.succ + 1 : Fin 51).val = n.val + 2 := by
  have hlt : n.val < 49 := by omega
  rw [Fin.val_add_one_of_lt' (by simp; omega)]
  rfl

theorem State.atSeq_self {s : State} {r : Row} {m : Fin 51} (hr : s.block.row = r) (hm : s.block.mpc = m) :
    s.atSeq r m = s := by
  subst hr hm
  rfl

/-- Settles O27: the state after SCAN_WRITE n is its pin write with the sequencer moved on. -/
theorem scanWriteAdvances : Obligations.ScanWriteAdvances := by
  intro s n hc he hm
  have hsucc : s.block.mpc = n.succ := Fin.ext (by simpa using hm)
  have hexec := exec_scanWrite_ok hc he hsucc
  rw [State.scanned_eq hsucc] at hexec
  refine ⟨_, (seqW s.block.curSel s.block.curCol n).1, (seqW s.block.curSel s.block.curCol n).2, hexec, ?_, ?_,
    fun hlt => ?_, fun h49 => ?_⟩
  · rw [exec_pinWrite]
    exact congrArg Host.Outcome.next (State.atSeq_self (s := s.pinWrites [_]) (by simp) (by simp)).symm
  · rw [← rowWrites_eq_ofFn]
    exact rowWrites_getElem? _ _ n
  · have hn : n ≠ 49 := fun h => by simp [h] at hlt
    rw [if_neg hn, if_neg hn]
    exact ⟨val_succ_add_one hn, by simp [State.atSeq]⟩
  · obtain rfl : n = 49 := Fin.ext h49
    simp [State.atSeq]

/-! ### Where there is no such step -/

theorem Block.engineEnabled_eq_false_iff (b : Block) :
    b.engineEnabled = false ↔ b.constructed = false ∨ b.engActive = false := Bool.and_eq_false_iff

/-- Settles O28, by the two conditions of each operation. -/
theorem scanOpsOnlyInSequence : Obligations.ScanOpsOnlyInSequence := by
  intro s n
  refine ⟨fun h => ?_, fun hc he => ⟨fun hm => ?_, fun hm => ?_⟩⟩
  · have hoff := s.block.engineEnabled_eq_false_iff.2 h
    simp [exec, execScanPoll, execScanWrite, hoff]
  · simp [exec, execScanPoll, Block.engineEnabled, hc, he, hm]
  · have hsucc : s.block.mpc ≠ n.succ := fun h => hm (by simp [h])
    simp [exec, execScanWrite, Block.engineEnabled, hc, he, hsucc]

/-! ### What the operations leave alone -/

/-- Settles O39, by everything the two operations can come to. -/
theorem engineNeverWritesBuffer : Obligations.EngineNeverWritesBuffer := by
  intro s t n i hi h
  obtain rfl | rfl : i = .scanPoll ∨ i = .scanWrite n := by simpa using hi
  · obtain ⟨-, he, -, ⟨-, -, rfl⟩ | ⟨-, rfl⟩⟩ := exec_scanPoll_next h
    · simp [he, SamePort]
    · simp [SamePort]
  · obtain ⟨-, -, -, rfl⟩ := exec_scanWrite_next h
    simp [State.scanned, SamePort]

/-! ### Steps of the machine -/

theorem Block.scanOp_of_mpc_zero {b : Block} (h : b.mpc = 0) : b.scanOp = .scanPoll := by
  simp [Block.scanOp, h]

theorem Block.scanOp_of_mpc_succ {b : Block} {n : Fin 50} (h : b.mpc = n.succ) : b.scanOp = .scanWrite n := by
  simp [Block.scanOp, h]

/-- An ENGINE step runs the sequencer's operation (R170). -/
theorem step_of_engineTurn {s s' : State} (h : TurnIs s .engine s') : step s = exec s.block.scanOp s' := by
  simp [step, fetch_of_turn h, fetchTurn, fetchEngine, h.same.1]

/-- Settles O30, by what the sequencer's operation is at each place. -/
theorem stepRunsEngineOp : Obligations.StepRunsEngineOp := by
  intro s s' h
  refine ⟨fun hm => ?_, fun n hm => ?_⟩
  · rw [step_of_engineTurn h, Block.scanOp_of_mpc_zero hm]
  · rw [step_of_engineTurn h, Block.scanOp_of_mpc_succ (Fin.ext (by simpa using hm))]

/-- Settles O35: with neither agent ready the step ends in the same state. -/
theorem quiescentStepChangesNothing : Obligations.QuiescentStepChangesNothing := by
  rintro s ⟨hu, hb, hi, hl⟩ he
  have hhost : s.hostReady = false := by simp [State.hostReady, hb, hi, hl]
  have hengine : s.engineReady = false := s.block.engineEnabled_eq_false_iff.2 he
  simp [step, fetch, hu, hhost, hengine]

end Sys2Proof.Machine
end

section
/-! PROOFS. The lifecycle (42_scan.md R176 to R179): STOP, what no command but CONSTRUCT touches, and the
transitions of the commands and of the engine. -/

namespace Sys2Proof.Machine

/-! ### STOP -/

/-- Settles O10: the checks pass, and the effect is StopScan and the response. -/
theorem stopRequestsCancel : Obligations.StopRequestsCancel := by
  intro s hb hc
  exact ⟨_, exec_stop_ok hb hc rfl, Block.stopScan_scanning, Block.stopScan_idle, by simp,
    s.respond_sameOutside s.block.stopScan .ok []⟩

/-! ### What the commands leave alone -/

/-- The pins' side and the cascade are the same, and the sequencer has moved only as the start of a scan from full
idle (R179). -/
def KeepsPins (s t : State) : Prop :=
  SamePinSide s.block t.block ∧ t.cascade = s.cascade ∧ SequencerKept s.block t.block

theorem KeepsPins.of_sameBlock {s t : State} (hb : t.block = s.block) (hc : t.cascade = s.cascade) :
    KeepsPins s t := by
  rw [KeepsPins, hb]
  exact ⟨by simp [SamePinSide], hc, .inl ⟨rfl, rfl⟩⟩

/-- A command keeps the pins if its effect does: its errors only respond (R211, R212). -/
theorem State.runCommand_keepsPins {s t : State} {checks : List (Option CommandError)} {effect : State → State}
    (h : s.runCommand checks effect = .next t) (he : KeepsPins s (effect s)) : KeepsPins s t := by
  obtain ⟨-, ⟨e, -, rfl⟩ | ⟨-, rfl⟩⟩ := State.runCommand_next h
  · exact .of_sameBlock rfl rfl
  · exact he

theorem State.replaceBuffer_keepsPins (s : State) (v : Rows) (startScan : Bool) :
    KeepsPins s (s.replaceBuffer v startScan) := by
  obtain ⟨hpins, hcascade, -⟩ := s.replaceBuffer_frame v startScan
  exact ⟨hpins, hcascade, s.replaceBuffer_sequencerKept v startScan⟩

theorem State.stopScan_keepsPins (s : State) :
    KeepsPins s (({ s with block := s.block.stopScan }).respond .ok []) :=
  ⟨by simp [SamePinSide], rfl, .inl (by simp)⟩

/-- Settles O38, by the effect of each of the five commands. -/
theorem commandsNeverTouchPins : Obligations.CommandsNeverTouchPins := by
  intro s t payload i hi h
  change KeepsPins s t
  obtain rfl | rfl | rfl | rfl | rfl : i = .setImageFlat payload ∨ i = .setImagePacked payload ∨
    i = .clear payload ∨ i = .stop payload ∨ i = .readBuffer payload := by simpa using hi
  · exact State.runCommand_keepsPins (show execSetImageFlat payload s = _ from h) (s.replaceBuffer_keepsPins _ _)
  · exact State.runCommand_keepsPins (show execSetImagePacked payload s = _ from h) (s.replaceBuffer_keepsPins _ _)
  · exact State.runCommand_keepsPins (show execClear payload s = _ from h) (s.replaceBuffer_keepsPins _ _)
  · exact State.runCommand_keepsPins (show execStop payload s = _ from h) s.stopScan_keepsPins
  · exact State.runCommand_keepsPins (show execReadBuffer payload s = _ from h) (.of_sameBlock rfl rfl)

/-! ### The four lifecycle states and the procedures that move between them -/

/-- The flags of a lifecycle state: `scan_state`, `eng_active`, `cancel`, `restart_pending` (R176). -/
def Lifecycle.flags : Lifecycle → ScanState × Bool × Bool × Bool
  | .quiet => (.idle, false, false, false)
  | .scanning => (.scanning, true, false, false)
  | .draining => (.idle, true, true, false)
  | .restarting => (.scanning, true, true, true)

theorem Block.lifecycle_eq_some_iff {b : Block} {l : Lifecycle} :
    b.lifecycle = some l ↔ (b.scanState, b.engActive, b.cancel, b.restartPending) = l.flags := by
  unfold Block.lifecycle
  cases l <;> cases b.scanState <;> cases b.engActive <;> cases b.cancel <;> cases b.restartPending <;>
    simp [Lifecycle.flags]

theorem Block.scanState_of_lifecycle {b : Block} {l : Lifecycle} (h : b.lifecycle = some l) :
    b.scanState = l.flags.1 := congrArg (·.1) (Block.lifecycle_eq_some_iff.1 h)

theorem Block.engActive_of_lifecycle {b : Block} {l : Lifecycle} (h : b.lifecycle = some l) :
    b.engActive = l.flags.2.1 := congrArg (·.2.1) (Block.lifecycle_eq_some_iff.1 h)

theorem Block.cancel_of_lifecycle {b : Block} {l : Lifecycle} (h : b.lifecycle = some l) :
    b.cancel = l.flags.2.2.1 := congrArg (·.2.2.1) (Block.lifecycle_eq_some_iff.1 h)

/-- The lifecycle state is in the four flags. -/
theorem Block.lifecycle_congr {b b' : Block} (hs : b'.scanState = b.scanState) (he : b'.engActive = b.engActive)
    (hx : b'.cancel = b.cancel) (hr : b'.restartPending = b.restartPending) : b'.lifecycle = b.lifecycle := by
  simp only [Block.lifecycle, hs, he, hx, hr]

/-- R176's table: StartScanIfIdle. -/
def Lifecycle.afterStart : Lifecycle → Lifecycle
  | .quiet | .scanning => .scanning
  | .draining | .restarting => .restarting

/-- R176's table: StopScan. -/
def Lifecycle.afterStop : Lifecycle → Lifecycle
  | .quiet => .quiet
  | .scanning | .draining | .restarting => .draining

/-- R176's table: OnCancel, which finds a cancel request only in DRAINING and RESTARTING. -/
def Lifecycle.afterCancel : Lifecycle → Lifecycle
  | .quiet | .draining => .quiet
  | .scanning | .restarting => .scanning

section
variable {b : Block} {l : Lifecycle}

theorem Block.startScanIfIdle_lifecycle (h : b.lifecycle = some l) :
    b.startScanIfIdle.lifecycle = some l.afterStart := by
  simp only [Block.lifecycle_eq_some_iff, Block.startScanIfIdle] at h ⊢
  cases l <;> simp_all [Lifecycle.flags, Lifecycle.afterStart]

theorem Block.stopScan_lifecycle (h : b.lifecycle = some l) : b.stopScan.lifecycle = some l.afterStop := by
  simp only [Block.lifecycle_eq_some_iff, Block.stopScan] at h ⊢
  cases l <;> simp_all [Lifecycle.flags, Lifecycle.afterStop]

theorem Block.onCancel_lifecycle (h : b.lifecycle = some l) (hx : b.cancel = true) :
    b.onCancel.lifecycle = some l.afterCancel := by
  simp only [Block.lifecycle_eq_some_iff, Block.onCancel_eq] at h ⊢
  cases l <;> simp_all [Lifecycle.flags, Lifecycle.afterCancel]

/-- A scan started from QUIET begins at row 0 (R177). -/
theorem Block.startScanIfIdle_sequencer_of_quiet (h : b.lifecycle = some .quiet) :
    b.startScanIfIdle.row = 0 ∧ b.startScanIfIdle.mpc = 0 := by
  obtain ⟨-, -, -, hidle⟩ := b.startScanIfIdle_scanStarted
  obtain ⟨-, -, -, hr, hm⟩ := hidle (Block.scanState_of_lifecycle h) (Block.engActive_of_lifecycle h)
  exact ⟨hr, hm⟩

end

/-! ### The transitions -/

section
variable {s t : State}

/-- A good image that answers a next state, with atomic writes, has its rows stored and StartScanIfIdle run (R132,
R133). -/
theorem exec_goodImage_next {i : Instr} (hi : GoodImage i) (hm : s.params.bufferWriteMode = .atomic)
    (hc : s.block.constructed = true) (h : exec i s = .next t) :
    ∃ v, t.block = ({ s.block with buf := v }).startScanIfIdle := by
  suffices ht : ∃ v, t = s.replaceBuffer v true by
    obtain ⟨v, rfl⟩ := ht
    exact ⟨v, by rw [State.replaceBuffer_atomic hm]; rfl⟩
  obtain ⟨p, rfl, hl⟩ | ⟨p, rfl, hl, hbyte⟩ := hi
  · cases (exec_setImageFlat_ok (exec_setImageFlat_next h).1 hc hl).symm.trans h
    exact ⟨_, rfl⟩
  · cases (exec_setImagePacked_ok (exec_setImagePacked_next h).1 hc hl hbyte).symm.trans h
    exact ⟨_, rfl⟩

theorem exec_stop_block (hc : s.block.constructed = true) (h : exec (.stop []) s = .next t) :
    t.block = s.block.stopScan := by
  cases (exec_stop_ok (exec_stop_next h).1 hc rfl).symm.trans h
  rfl

/-- CLEAR, with atomic writes, and READ_BUFFER keep the lifecycle state, whatever they answer (R134, R136). -/
theorem exec_clear_or_readBuffer_lifecycle {i : Instr} {p : List Word} (hi : i = .clear p ∨ i = .readBuffer p)
    (hm : s.params.bufferWriteMode = .atomic) (h : exec i s = .next t) : t.block.lifecycle = s.block.lifecycle := by
  obtain rfl | rfl := hi
  · obtain ⟨-, ⟨r, rfl⟩ | ⟨-, -, rfl⟩⟩ := exec_clear_next h
    · rfl
    · rw [State.replaceBuffer_atomic hm]
      rfl
  · obtain ⟨-, ⟨r, rfl⟩ | ⟨-, -, rfl⟩⟩ := exec_readBuffer_next h
    · rfl
    · rfl

/-- SCAN_POLL that honours a request is OnCancel (R171). -/
theorem exec_scanPoll_honours (h : exec .scanPoll s = .next t) (hx : s.block.cancel = true)
    (hp : polls s.params.cancelPoll s.block.row = true) : t.block = s.block.onCancel := by
  obtain ⟨-, -, -, ⟨-, -, rfl⟩ | ⟨hn, -⟩⟩ := exec_scanPoll_next h
  · rfl
  · simp [hx, hp] at hn

/-- SCAN_POLL that honours none keeps the lifecycle state (R171). -/
theorem exec_scanPoll_lifecycle (h : exec .scanPoll s = .next t)
    (hn : polls s.params.cancelPoll s.block.row = false ∨ s.block.cancel = false) :
    t.block.lifecycle = s.block.lifecycle := by
  obtain ⟨-, -, -, ⟨hp, hx, -⟩ | ⟨-, rfl⟩⟩ := exec_scanPoll_next h
  · simp [hp, hx] at hn
  · rfl

theorem State.scanned_lifecycle (s : State) (n : Fin 50) : (s.scanned n).block.lifecycle = s.block.lifecycle :=
  Block.lifecycle_congr (by simp [State.scanned]) (by simp [State.scanned]) (by simp [State.scanned])
    (by simp [State.scanned])

end

/-- Settles O43: each operation runs one of the three procedures, or none. -/
theorem lifecycleTransitions : Obligations.LifecycleTransitions := by
  intro s t i _ hm h
  refine ⟨fun hi hc => ?_, fun hi hc => ?_, fun ⟨p, hi⟩ => exec_clear_or_readBuffer_lifecycle hi hm h,
    fun hi hx hp => ?_, fun hi hn => ?_, fun n hi => ?_⟩
  · obtain ⟨v, hb⟩ := exec_goodImage_next hi hm hc h
    have hstart : ∀ l, s.block.lifecycle = some l → t.block.lifecycle = some l.afterStart := fun l hl =>
      hb ▸ Block.startScanIfIdle_lifecycle (b := { s.block with buf := v }) hl
    exact ⟨fun hl => ⟨hstart _ hl, hb ▸ Block.startScanIfIdle_sequencer_of_quiet hl⟩, hstart _, hstart _, hstart _⟩
  · subst hi
    have hstop : ∀ l, s.block.lifecycle = some l → t.block.lifecycle = some l.afterStop := fun l hl =>
      exec_stop_block hc h ▸ Block.stopScan_lifecycle hl
    exact ⟨hstop _, hstop _, hstop _, hstop _⟩
  · subst hi
    have hb := exec_scanPoll_honours h hx ((polls_iff _ _).2 hp)
    have hcancel : ∀ l, s.block.lifecycle = some l → t.block.lifecycle = some l.afterCancel := fun l hl =>
      hb ▸ Block.onCancel_lifecycle hl hx
    exact ⟨hb ▸ s.block.onCancel_row, hcancel _, hcancel _⟩
  · subst hi
    exact exec_scanPoll_lifecycle h (nothing_honoured hn)
  · subst hi
    obtain ⟨-, -, -, rfl⟩ := exec_scanWrite_next h
    exact s.scanned_lifecycle n

end Sys2Proof.Machine
end

section
/-! PROOFS. Runs of an engine that is alone (42_scan.md R182, R183): whole rows, a full pass, and what follows a
STOP. -/

namespace Sys2Proof.Machine

/-! ### What such a run leaves alone -/

/-- From `s` the ENGINE alone has come to `t` by these pin writes, with no cancel request honoured (R172, R179). -/
structure EngineRan (s : State) (writes : List (Pin × Level)) (t : State) : Prop where
  alone : EngineAlone t
  params : t.params = s.params
  constructed : t.block.constructed = s.block.constructed
  buf : t.block.buf = s.block.buf
  scanState : t.block.scanState = s.block.scanState
  engActive : t.block.engActive = s.block.engActive
  cancel : t.block.cancel = s.block.cancel
  restartPending : t.block.restartPending = s.block.restartPending
  trace : t.block.trace = s.block.trace ++ writes

theorem EngineRan.refl {s : State} (ha : EngineAlone s) : EngineRan s [] s :=
  ⟨ha, rfl, rfl, rfl, rfl, rfl, rfl, rfl, by simp⟩

theorem EngineRan.trans {s t u : State} {l l' : List (Pin × Level)} (h : EngineRan s l t) (h' : EngineRan t l' u) :
    EngineRan s (l ++ l') u :=
  ⟨h'.alone, h'.params.trans h.params, h'.constructed.trans h.constructed, h'.buf.trans h.buf,
    h'.scanState.trans h.scanState, h'.engActive.trans h.engActive, h'.cancel.trans h.cancel,
    h'.restartPending.trans h.restartPending, by rw [h'.trace, h.trace, List.append_assoc]⟩

theorem EngineRan.lifecycle {s t : State} {l : List (Pin × Level)} (h : EngineRan s l t) :
    t.block.lifecycle = s.block.lifecycle :=
  Block.lifecycle_congr h.scanState h.engActive h.cancel h.restartPending

theorem EngineRan.bufRead {s t : State} {l : List (Pin × Level)} (h : EngineRan s l t) (r : Row) :
    t.block.bufRead r = s.block.bufRead r := by
  simp only [Block.bufRead, h.buf]

theorem engineRan_pinWrites {s : State} (ha : EngineAlone s) (l : List (Pin × Level)) (r : Row) (m : Fin 51) :
    EngineRan s l ((s.pinWrites l).atSeq r m) := by
  refine ⟨ha.afterWrites l r m, ?_, ?_, ?_, ?_, ?_, ?_, ?_, ?_⟩ <;> simp [State.atSeq]

/-- The start of a row writes no pin (R171). -/
theorem EngineRan.of_startRow {s t : State} {l : List (Pin × Level)}
    (h : EngineRan { s with block := s.block.startRow } l t) : EngineRan s l t :=
  ⟨h.alone, h.params, h.constructed, h.buf, h.scanState, h.engActive, h.cancel, h.restartPending, h.trace⟩

/-! ### Whole rows -/

/-- The writes of `j` rows from the current one on, wrapping, each with its byte of the buffer (R183). -/
def Block.rowsWrites (b : Block) (j : Nat) : List (Pin × Level) :=
  (List.range j).flatMap fun k =>
    rowWrites (selector (b.row + BitVec.ofNat 3 k)) (b.bufRead (b.row + BitVec.ofNat 3 k))

theorem Block.rowsWrites_succ (b : Block) (j : Nat) :
    b.rowsWrites (j + 1) = b.rowsWrites j ++
      rowWrites (selector (b.row + BitVec.ofNat 3 j)) (b.bufRead (b.row + BitVec.ofNat 3 j)) := by
  simp [Block.rowsWrites, List.range_succ]

/-- 51 `j` steps of an engine alone present `j` rows and stand at the next boundary, if none of the boundaries they
pass honours a request. -/
theorem runSteps_rows {s : State} (ha : EngineAlone s) (hc : s.block.constructed = true)
    (he : s.block.engActive = true) (hm : s.block.mpc = 0) (j : Nat)
    (hp : ∀ k < j, polls s.params.cancelPoll (s.block.row + BitVec.ofNat 3 k) = false ∨ s.block.cancel = false) :
    ∃ t, runSteps (51 * j) s = .next t ∧ EngineRan s (s.block.rowsWrites j) t ∧ t.block.mpc = 0 ∧
      t.block.row = s.block.row + BitVec.ofNat 3 j := by
  induction j with
  | zero => exact ⟨s, rfl, .refl ha, hm, by simp⟩
  | succ j ih =>
    obtain ⟨t, hrun, hran, htm, htr⟩ := ih fun k hk => hp k (Nat.lt_succ_of_lt hk)
    have hrow := runSteps_row hran.alone (hran.constructed.trans hc) (hran.engActive.trans he) htm
      (by rw [hran.params, hran.cancel, htr]; exact hp j j.lt_succ_self)
    refine ⟨_, by rw [Nat.mul_succ, runSteps_add 51 hrun, hrow], ?_, rfl, ?_⟩
    · rw [Block.rowsWrites_succ, ← htr, ← hran.bufRead]
      exact hran.trans (engineRan_pinWrites (s := { t with block := t.block.startRow }) hran.alone _ _ _).of_startRow
    · rw [BitVec.ofNat_add, ← BitVec.add_assoc, ← htr]
      rfl

/-- Settles O50: eight rows, after which the row index has wrapped to where it was. -/
theorem fullPassPresentsEveryRow : Obligations.FullPassPresentsEveryRow := by
  intro s ha hc he hm hx
  obtain ⟨t, hrun, hran, htm, htr⟩ := runSteps_rows ha hc he hm 8 fun _ _ => .inr hx
  refine ⟨t, hrun, ?_, by simpa using htr, htm, hran.buf, hran.lifecycle⟩
  simp only [hran.trace, Block.rowsWrites, rowWrites_eq_ofFn, selector]

/-! ### The row in flight -/

/-- How many writes of the row in flight are still to come; none at a boundary (R182). -/
def Block.writesLeft (b : Block) : Nat := if b.mpc.val = 0 then 0 else 51 - b.mpc.val

/-- The row at whose boundary the sequencer next stands. -/
def Block.nextRow (b : Block) : Row := if b.mpc.val = 0 then b.row else b.row + 1

/-- The writes of the row in flight that are still to come. -/
def Block.restOfRow (b : Block) : List (Pin × Level) := (rowWrites b.curSel b.curCol).drop (50 - b.writesLeft)

section
variable {s : State} (ha : EngineAlone s) (hc : s.block.constructed = true) (he : s.block.engActive = true)
include ha hc he

/-- An engine alone completes the row in flight, one write a step (R172). -/
theorem runSteps_restOfRow :
    ∃ t, runSteps s.block.writesLeft s = .next t ∧ EngineRan s s.block.restOfRow t ∧ t.block.mpc = 0 ∧
      t.block.row = s.block.nextRow := by
  by_cases hm : s.block.mpc.val = 0
  · have hl : s.block.writesLeft = 0 := if_pos hm
    have hrest : s.block.restOfRow = [] := by simp [Block.restOfRow, hl]
    rw [hl, hrest]
    exact ⟨s, rfl, .refl ha, Fin.ext hm, (if_pos hm).symm⟩
  · have hlt := s.block.mpc.isLt
    have hl : s.block.writesLeft = 50 - (s.block.mpc.val - 1) := by
      rw [Block.writesLeft, if_neg hm]
      omega
    have hrest : s.block.restOfRow = (rowWrites s.block.curSel s.block.curCol).drop (s.block.mpc.val - 1) := by
      rw [Block.restOfRow, hl]
      congr 1
      omega
    rw [hl, hrest]
    exact ⟨_, runSteps_rest (by omega) (by omega) ha hc he, engineRan_pinWrites ha _ _ _, rfl, (if_neg hm).symm⟩

/-- Until the row in flight is complete, no request is honoured. -/
theorem runSteps_inRow {k : Nat} (hk : k ≤ s.block.writesLeft) :
    ∃ writes u, runSteps k s = .next u ∧ EngineRan s writes u := by
  obtain rfl | hlt := hk.eq_or_lt
  · obtain ⟨u, hrun, hran, -⟩ := runSteps_restOfRow ha hc he
    exact ⟨_, u, hrun, hran⟩
  · have hm : s.block.mpc.val ≠ 0 := fun h => by simp [Block.writesLeft, h] at hlt
    rw [Block.writesLeft, if_neg hm] at hlt
    obtain ⟨_, hrun⟩ := runSteps_writes k (s.block.mpc.val - 1) s (by omega) (by omega) ha hc he
    exact ⟨_, _, hrun, engineRan_pinWrites ha _ _ _⟩

end

/-! ### The engine's exit -/

/-- A DRAINING engine at a boundary that tests `cancel` exits, and the block is then quiescent (R175, R185). -/
theorem step_engineAlone_exit {s : State} (ha : EngineAlone s) (hc : s.block.constructed = true)
    (hl : s.block.lifecycle = some .draining) (hm : s.block.mpc = 0)
    (hp : polls s.params.cancelPoll s.block.row = true) :
    ∃ v, runSteps 1 s = .next v ∧ v.block.lifecycle = some .quiet ∧ v.block.trace = s.block.trace ∧
      v.block.buf = s.block.buf ∧ step v = .next v := by
  have he : s.block.engActive = true := Block.engActive_of_lifecycle hl
  have hx : s.block.cancel = true := Block.cancel_of_lifecycle hl
  have hquiet : s.block.onCancel.lifecycle = some .quiet := Block.onCancel_lifecycle hl hx
  have hexit : step s = .next { s with block := s.block.onCancel } := by
    rw [step_engineAlone ha hc he, Block.scanOp_of_mpc_zero hm, exec_scanPoll_cancel hc he hm hp hx]
  exact ⟨_, by simp only [runSteps, hexit], hquiet, by simp, by simp,
    quiescentStepChangesNothing { s with block := s.block.onCancel } ha (.inr (Block.engActive_of_lifecycle hquiet))⟩

/-! ### STOP -/

/-- `s` after a STOP (R135). -/
def State.stopped (s : State) : State := ({ s with block := s.block.stopScan }).respond .ok []

theorem exec_stop_engineAlone {s : State} (ha : EngineAlone s) (hc : s.block.constructed = true) :
    exec (.stop []) s = .next s.stopped := by
  obtain ⟨-, hb, -⟩ := ha
  exact exec_stop_ok hb hc rfl

/-- What STOP leaves of the row in flight. -/
theorem State.stopped_restOfRow (s : State) :
    s.stopped.block.writesLeft = s.block.writesLeft ∧ s.stopped.block.restOfRow = s.block.restOfRow ∧
      s.stopped.block.nextRow = s.block.nextRow := by
  simp [State.stopped, Block.writesLeft, Block.restOfRow, Block.nextRow]

/-- After a STOP of a SCANNING block the engine completes the row in flight, DRAINING at every step, and then stands
at the next boundary (R182). -/
theorem stopped_completesRow {s : State} (ha : EngineAlone s) (hc : s.block.constructed = true)
    (hl : s.block.lifecycle = some .scanning) :
    (∀ k ≤ s.block.writesLeft, ∃ u, runSteps k s.stopped = .next u ∧ u.block.lifecycle = some .draining) ∧
      ∃ u, runSteps s.block.writesLeft s.stopped = .next u ∧ EngineRan s.stopped s.block.restOfRow u ∧
        u.block.constructed = true ∧ u.block.lifecycle = some .draining ∧ u.block.mpc = 0 ∧
        u.block.row = s.block.nextRow := by
  have ha' : EngineAlone s.stopped := ha
  have hc' : s.stopped.block.constructed = true := by simpa [State.stopped] using hc
  have hl' : s.stopped.block.lifecycle = some .draining := Block.stopScan_lifecycle hl
  have he' : s.stopped.block.engActive = true := Block.engActive_of_lifecycle hl'
  obtain ⟨hleft, hrest, hnext⟩ := s.stopped_restOfRow
  constructor
  · intro k hk
    obtain ⟨writes, u, hrun, hran⟩ := runSteps_inRow ha' hc' he' (hleft.symm ▸ hk)
    exact ⟨u, hrun, hran.lifecycle.trans hl'⟩
  · obtain ⟨u, hrun, hran, hm, hr⟩ := runSteps_restOfRow ha' hc' he'
    rw [hleft] at hrun
    rw [hrest] at hran
    exact ⟨u, hrun, hran, hran.constructed.trans hc', hran.lifecycle.trans hl', hm, hr.trans hnext⟩

/-- The rest of the row in flight as R182 writes it. -/
theorem Block.restOfRow_eq (b : Block) :
    b.restOfRow = (List.ofFn (seqW b.curSel b.curCol)).drop (50 - b.writesLeft) := by
  rw [Block.restOfRow, rowWrites_eq_ofFn]

/-- Settles O51: the row in flight is completed, and per_row tests `cancel` at every boundary. -/
theorem stopLatencyPerRow : Obligations.StopLatencyPerRow := by
  intro s ha hmode hc hl
  obtain ⟨hdraining, u, hrun, hran, huc, hul, hum, -⟩ := stopped_completesRow ha hc hl
  have humode : u.params.cancelPoll = s.params.cancelPoll := congrArg Params.cancelPoll hran.params
  obtain ⟨v, hexit, hquiet, htrace, hbuf, hstays⟩ := step_engineAlone_exit hran.alone huc hul hum
    ((polls_iff _ _).2 (.inl (humode.trans hmode)))
  refine ⟨s.stopped, exec_stop_engineAlone ha hc, hdraining, v, (runSteps_add 1 hrun).trans hexit, hquiet, ?_, ?_,
    hstays⟩
  · rw [htrace, hran.trace, Block.restOfRow_eq]
    simp [State.stopped, Block.writesLeft]
  · rw [hbuf, hran.buf]
    simp [State.stopped]

/-! ### STOP with CANCEL_POLL = per_cycle -/

/-- The first row that a STOP with CANCEL_POLL = per_cycle leaves to present in full, or 8 for none (R182). -/
def Block.firstNew (b : Block) : Nat :=
  if b.mpc.val = 0 then (if b.row = 0 then 8 else b.row.toNat) else b.row.toNat + 1

theorem Block.firstNew_pos (b : Block) : 0 < b.firstNew := by
  unfold Block.firstNew
  split
  · split
    · omega
    · next hr => exact Nat.pos_of_ne_zero fun h => hr (BitVec.eq_of_toNat_eq h)
  · omega

theorem Block.firstNew_le (b : Block) : b.firstNew ≤ 8 := by
  have hlt := b.row.isLt
  unfold Block.firstNew
  split
  · split <;> omega
  · omega

theorem Block.nextRow_eq_firstNew (b : Block) : b.nextRow = BitVec.ofNat 3 b.firstNew := by
  unfold Block.nextRow Block.firstNew
  split
  · split
    · next hr => rw [hr]; rfl
    · simp
  · simp [BitVec.ofNat_add]

/-- None of the rows from there up to row 7 is row 0. -/
theorem Block.nextRow_add_ne_zero (b : Block) {k : Nat} (hk : k < 8 - b.firstNew) :
    b.nextRow + BitVec.ofNat 3 k ≠ 0 := by
  intro h
  have hpos := b.firstNew_pos
  rw [b.nextRow_eq_firstNew, ← BitVec.ofNat_add] at h
  have hmod : (b.firstNew + k) % 8 = 0 := congrArg BitVec.toNat h
  omega

/-- Row 0 comes after them. -/
theorem Block.nextRow_add_eq_zero (b : Block) : b.nextRow + BitVec.ofNat 3 (8 - b.firstNew) = 0 := by
  rw [b.nextRow_eq_firstNew, ← BitVec.ofNat_add, Nat.add_sub_cancel' b.firstNew_le]
  rfl

/-- The rows from row n up to row 7, from row n's boundary. -/
theorem Block.rowsWrites_upTo7 {b : Block} {n : Nat} (hn : b.row = BitVec.ofNat 3 n) :
    b.rowsWrites (8 - n) =
      ((List.range 8).drop n).flatMap fun k =>
        List.ofFn (seqW (1#8 <<< k) (b.bufRead (BitVec.ofNat 3 k))) := by
  have hdrop : (List.range 8).drop n = (List.range (8 - n)).map (n + ·) := by
    rw [List.range_eq_range', List.drop_range', List.range'_eq_map_range]
    simp
  rw [hdrop, List.flatMap_map, Block.rowsWrites, hn]
  refine List.flatMap_congr fun k hk => ?_
  have hlt : n + k < 8 := by
    have := List.mem_range.1 hk
    omega
  simp only [← BitVec.ofNat_add, rowWrites_eq_ofFn, selector, BitVec.toNat_ofNat, Nat.mod_eq_of_lt hlt]

/-- Settles O52: the row in flight is completed, the boundaries of the rows up to 7 do not test `cancel`, and the one
before row 0 does. -/
theorem stopLatencyPerCycle : Obligations.StopLatencyPerCycle := by
  intro s ha hmode hc hl
  obtain ⟨-, u, hrun, hran, huc, hul, hum, hur⟩ := stopped_completesRow ha hc hl
  have hue : u.block.engActive = true := Block.engActive_of_lifecycle hul
  have humode : u.params.cancelPoll = s.params.cancelPoll := congrArg Params.cancelPoll hran.params
  obtain ⟨w, hrows, hran', hwm, hwr⟩ := runSteps_rows hran.alone huc hue hum (8 - s.block.firstNew) fun k hk =>
    nothing_honoured (.inr ⟨humode.trans hmode, hur ▸ s.block.nextRow_add_ne_zero hk⟩)
  have hwrow : w.block.row = 0 := by rw [hwr, hur, s.block.nextRow_add_eq_zero]
  obtain ⟨v, hexit, hquiet, htrace, hbuf, hstays⟩ := step_engineAlone_exit hran'.alone
    (hran'.constructed.trans huc) (hran'.lifecycle.trans hul) hwm ((polls_iff _ _).2 (.inr hwrow))
  have hall : runSteps (s.block.writesLeft + 51 * (8 - s.block.firstNew) + 1) s.stopped = .next v := by
    rw [Nat.add_assoc, runSteps_add _ hrun, runSteps_add 1 hrows, hexit]
  refine ⟨s.stopped, exec_stop_engineAlone ha hc, v, hall, hquiet, ?_, ?_, hstays⟩
  · rw [htrace, hran'.trace, hran.trace, Block.rowsWrites_upTo7 (hur.trans s.block.nextRow_eq_firstNew),
      Block.restOfRow_eq]
    simp only [hran.bufRead]
    simp [State.stopped, Block.writesLeft, Block.firstNew, Block.bufRead]
  · rw [hbuf, hran'.buf, hran.buf]
    simp [State.stopped]

end Sys2Proof.Machine
end

section
/-! PROOFS. Infinite executions (42_scan.md R183, R184): the HOST takes finitely many contested steps before the
ENGINE's next one, none of which moves the sequencer of an active engine, and each ENGINE step takes the sequencer one
place on, through the 408 places of a full pass. -/

namespace Sys2Proof.Machine

/-! ### The contested steps that the HOST has left -/

/-- How many contested steps the HOST still takes, where no turns are listed: those it has begun, or as many as the
free value says (R10, R184; log 1). -/
def State.wait (s : State) : Nat := s.engineWait.getD (Config.hostSteps s.drawn)

theorem WaitIs.eq_wait {s s' : State} {n : Nat} (h : WaitIs s n s') : n = s.wait := by
  obtain ⟨hw, -⟩ | ⟨hw, rfl, -⟩ := h <;> simp [State.wait, hw]

/-- The turns listed, and then the wait, in lexicographic order. -/
def State.hostLeft (s : State) : ℕ ×ₗ ℕ := toLex (s.turns.length, s.wait)

/-- A HOST turn that the ENGINE could have taken leaves the HOST with fewer. -/
theorem HostTurnIs.hostLeft_lt {s s' t : State} (h : HostTurnIs s s')
    (hen : s.block.constructed = true ∧ s.block.engActive = true) (ht : t.turns = s'.turns)
    (hw : t.engineWait = s'.engineWait) : t.hostLeft < s.hostLeft := by
  obtain ⟨s₁, ⟨-, hturn⟩, hahead⟩ := h
  obtain ⟨-, -, -, -, -, -, hturns, hwait, -⟩ := hahead.same
  rw [hturns] at ht
  rw [hwait] at hw
  obtain ⟨-, hn, -⟩ | ⟨-, -, ha, -⟩ | ⟨-, -, l, hl, rfl⟩ | ⟨-, -, hl, n, s₂, hwt, ⟨-, ha, -⟩ | ⟨m, hm, -, rfl⟩⟩ := hturn
  · exact absurd hen hn
  · cases ha
  · exact Prod.Lex.toLex_lt_toLex.2 (.inl (by simp [ht, hl]))
  · cases ha
  · have hl₂ : s₂.turns = s.turns := by obtain ⟨-, rfl⟩ | ⟨-, -, rfl⟩ := hwt <;> rfl
    have hlt : t.wait < s.wait := by
      rw [← hwt.eq_wait, hm]
      simp [State.wait, hw]
    exact Prod.Lex.toLex_lt_toLex.2 (.inr ⟨by simp [ht, hl₂], hlt⟩)

/-! ### HOST steps leave the sequencer of an active engine alone -/

theorem SequencerKept.of_active {b b' : Block} (h : SequencerKept b b') (he : b.engActive = true) :
    b'.row = b.row ∧ b'.mpc = b.mpc := by
  obtain hk | ⟨-, hoff, -⟩ := h
  · exact hk
  · simp [he] at hoff

/-- A delivered command on a constructed block moves the sequencer only as the start of a scan (R179). -/
theorem exec_command_sequencerKept {i : Instr} {s t : State} {words : List Word} (hd : decodeCommand words = .ok i)
    (hc : s.block.constructed = true) (h : exec i s = .next t) : SequencerKept s.block t.block := by
  obtain ⟨-, ⟨e, rfl⟩ | ⟨hn, -⟩ | ⟨-, v, startScan, rfl⟩ | ⟨-, rfl⟩ | ⟨-, rfl⟩⟩ := exec_command_next hd h
  · exact .inl ⟨rfl, rfl⟩
  · simp [hc] at hn
  · exact s.replaceBuffer_sequencerKept v startScan
  · exact .inl (by simp)
  · exact .inl ⟨rfl, rfl⟩

/-- A step from an active engine to an active one is the ENGINE's, or a HOST step that leaves the sequencer where it
is. -/
theorem step_active {s t : State} (hi : s.Inv) (he : s.block.engActive = true) (h : step s = .next t)
    (he' : t.block.engActive = true) :
    (∃ s', TurnIs s .engine s') ∨
      ((∃ s', HostTurnIs s s') ∧ t.block.row = s.block.row ∧ t.block.mpc = s.block.mpc) := by
  have hen := hi.block.enabled_of_active he
  obtain ⟨w, i, hw, -⟩ | ⟨s', r, inputs, hs, -, -, rfl⟩ | ⟨s', k, rest, -, -, rfl⟩ |
    ⟨s', words, rest, i, hs, -, -, hd, hx⟩ | ⟨s', words, rest, reason, hs, -, -, rfl⟩ | ⟨s', hs, -⟩ |
    ⟨-, hn, -⟩ := step_next h
  · simp [hi.noMicroOp] at hw
  · rw [← hs.same.1] at he ⊢
    exact .inr ⟨⟨s', hs⟩, (({ s' with inputs := inputs }).replacementStep_sequencerKept r).of_active he⟩
  · cases he'
  · rw [← hs.same.1] at he hen ⊢
    exact .inr ⟨⟨s', hs⟩, (exec_command_sequencerKept (s := { s' with inputs := rest }) hd hen.1 hx).of_active he⟩
  · rw [← hs.same.1]
    exact .inr ⟨⟨s', hs⟩, rfl, rfl⟩
  · exact .inl ⟨s', hs⟩
  · exact absurd hen hn

/-! ### The places of the sequencer -/

/-- Where the sequencer stands among the 408 places of a full pass, 51 to a row (R28, R183). -/
def Block.place (b : Block) : Nat := b.row.toNat * 51 + b.mpc.val

theorem Block.place_lt (b : Block) : b.place < 408 := by
  have hr := b.row.isLt
  have hm := b.mpc.isLt
  unfold Block.place
  omega

theorem Block.place_eq_iff (b : Block) (r : Row) (m : Fin 51) :
    b.place = r.toNat * 51 + m.val ↔ b.row = r ∧ b.mpc = m := by
  have hb := b.mpc.isLt
  have hm := m.isLt
  rw [← BitVec.toNat_inj, Fin.ext_iff, Block.place]
  omega

/-- Pin write n takes the sequencer one place on, from the last place to the first (R173). -/
theorem State.scanned_place {s : State} {n : Fin 50} (hm : s.block.mpc = n.succ) :
    (s.scanned n).block.place = (s.block.place + 1) % 408 := by
  have hr := s.block.row.isLt
  have hn := n.isLt
  rw [State.scanned_eq hm]
  by_cases h49 : n = 49
  · subst h49
    simp [Block.place, State.atSeq, hm]
    omega
  · simp only [Block.place, State.atSeq, hm, if_neg h49, val_succ_add_one h49, Fin.val_succ]
    omega

/-- An ENGINE step that honours no request takes the sequencer one place on (R171, R173). -/
theorem step_engineTurn_place {s s' t : State} (hs : TurnIs s .engine s') (h : step s = .next t)
    (hx : t.block.cancel = s.block.cancel) : t.block.place = (s.block.place + 1) % 408 := by
  have hr := s'.block.row.isLt
  rw [step_of_engineTurn hs, ← hs.same.1] at h
  rw [← hs.same.1] at hx ⊢
  obtain ⟨-, -, ⟨-, -, hx', rfl⟩ | ⟨hm, -, rfl⟩ | ⟨n, hm, rfl⟩⟩ := exec_scanOp_next h
  · simp [hx'] at hx
  · simp only [Block.place, Block.startRow_row, Block.startRow_mpc, hm, Fin.val_zero, Fin.val_one]
    omega
  · exact State.scanned_place hm

/-- At (0, 0) every setting of CANCEL_POLL tests `cancel`, so an ENGINE step there leaves no request (R174, R175). -/
theorem step_engineTurn_honours {s s' t : State} (hs : TurnIs s .engine s') (h : step s = .next t)
    (hr : s.block.row = 0) (hm : s.block.mpc = 0) : t.block.cancel = false := by
  rw [step_of_engineTurn hs, ← hs.same.1] at h
  rw [← hs.same.1] at hr hm
  have hp : polls s'.params.cancelPoll s'.block.row = true := (polls_iff _ _).2 (.inr hr)
  obtain ⟨-, -, ⟨-, -, -, rfl⟩ | ⟨-, hn, rfl⟩ | ⟨n, hn, -⟩⟩ := exec_scanOp_next h
  · exact s'.block.onCancel_cancel
  · simpa [hp] using hn
  · exact absurd (hn.symm.trans hm) (Fin.succ_ne_zero n)

/-! ### Executions -/

section
variable {f : Nat → State} (hi : (f 0).Inv) (hrun : IsRun f)
include hi hrun

theorem IsRun.inv (k : Nat) : (f k).Inv := by
  induction k with
  | zero => exact hi
  | succ k ih => exact stepKeepsInvariant _ _ ih (hrun k)

/-- While the engine stays active its next step comes, with the sequencer where it is now (R184): until then every
step is a HOST's and leaves the HOST with fewer. -/
theorem IsRun.exists_engineTurn (k : Nat) (ha : ∀ j, k ≤ j → (f j).block.engActive = true) :
    ∃ j, k ≤ j ∧ (∃ s', TurnIs (f j) .engine s') ∧ (f j).block.place = (f k).block.place := by
  induction hm : (f k).hostLeft using WellFoundedLT.induction generalizing k with
  | ind m ih =>
    subst hm
    have hi' := IsRun.inv hi hrun k
    have he := ha k le_rfl
    have he' := ha (k + 1) k.le_succ
    obtain hturn | ⟨⟨s', hs⟩, hr, hm⟩ := step_active hi' he (hrun k) he'
    · exact ⟨k, le_rfl, hturn, rfl⟩
    · obtain ⟨hturns, hwait⟩ := step_hostTurn_turns hs (hrun k) he'
      have hlt := hs.hostLeft_lt (hi'.block.enabled_of_active he) hturns hwait
      obtain ⟨j, hj, hturn, hplace⟩ := ih _ hlt (k + 1) (fun j hj => ha j (Nat.le_of_succ_le hj)) rfl
      exact ⟨j, Nat.le_of_succ_le hj, hturn, by rw [hplace, Block.place, hr, hm, ← Block.place]⟩

variable (ha : ∀ k, (f k).block.engActive = true) {c : Bool} (hx : ∀ k, (f k).block.cancel = c)
include ha hx

/-- An active engine that honours no request comes `d` places on. -/
theorem IsRun.exists_engineTurn_later (d k : Nat) :
    ∃ j, k ≤ j ∧ (∃ s', TurnIs (f j) .engine s') ∧ (f j).block.place = ((f k).block.place + d) % 408 := by
  induction d with
  | zero =>
    obtain ⟨j, hj, hturn, hplace⟩ := IsRun.exists_engineTurn hi hrun k fun j _ => ha j
    exact ⟨j, hj, hturn, hplace.trans (Nat.mod_eq_of_lt (f k).block.place_lt).symm⟩
  | succ d ih =>
    obtain ⟨i, hi', ⟨s', hs⟩, hplace⟩ := ih
    have hnext := step_engineTurn_place hs (hrun i) ((hx (i + 1)).trans (hx i).symm)
    obtain ⟨j, hj, hturn, hsame⟩ := IsRun.exists_engineTurn hi hrun (i + 1) fun j _ => ha j
    exact ⟨j, by omega, hturn, by rw [hsame, hnext, hplace]; omega⟩

/-- So the ENGINE moves from every place again and again. -/
theorem IsRun.engineTurn_recurs (r : Row) (m : Fin 51) (n : Nat) :
    ∃ k, n ≤ k ∧ (∃ s', TurnIs (f k) .engine s') ∧ (f k).block.row = r ∧ (f k).block.mpc = m := by
  have hlt := (f n).block.place_lt
  have hr := r.isLt
  have hm := m.isLt
  obtain ⟨k, hk, hturn, hplace⟩ :=
    IsRun.exists_engineTurn_later hi hrun ha hx (r.toNat * 51 + m.val + 408 - (f n).block.place) n
  exact ⟨k, hk, hturn, ((f k).block.place_eq_iff r m).1 (by rw [hplace]; omega)⟩

end

/-- Settles O54: from any point on at which the engine stays active, its next step comes. -/
theorem everyRunIsFair : Obligations.EveryRunIsFair := by
  rintro f hi hrun ⟨n, ha⟩ m
  obtain ⟨k, hk, hturn, -⟩ := IsRun.exists_engineTurn hi hrun (max n m) fun j hj => ha j (le_of_max_le_left hj)
  exact ⟨k, le_of_max_le_right hk, hturn⟩

/-- Settles O55: a request that stood for ever would keep the engine active, which would come to an ENGINE step at
(0, 0). -/
theorem noCancelStandsForEver : Obligations.NoCancelStandsForEver := by
  intro f hi hrun _
  by_contra hnever
  have hx : ∀ k, (f k).block.cancel = true := fun k => by simpa using not_exists.1 hnever k
  have ha : ∀ k, (f k).block.engActive = true := fun k => ((IsRun.inv hi hrun k).block.enabled_of_cancel (hx k)).2
  obtain ⟨k, -, ⟨s', hs⟩, hr, hm⟩ := IsRun.engineTurn_recurs hi hrun ha hx 0 0 0
  exact hnever ⟨k + 1, step_engineTurn_honours hs (hrun k) hr hm⟩

/-- Settles O56: the ENGINE moves again and again from the place before each row's last write. -/
theorem scanRepeatsForEver : Obligations.ScanRepeatsForEver := by
  intro f hi hrun hscan r n
  obtain ⟨k, hk, -, hr, hm⟩ :=
    IsRun.engineTurn_recurs hi hrun (fun k => (hscan k).1) (fun k => (hscan k).2) r 50 n
  exact ⟨k, hk, hr, hm⟩

end Sys2Proof.Machine
end

section
/-! PROOFS. The exceptional outcomes (60_exceptions.md): the two errors of a command, what the cascade's outputs show,
and the loss of power. -/

namespace Sys2Proof.Machine

/-! ### A command that ends in an error -/

/-- Once the block is constructed a wrong length decides, whatever the checks after it would say (R213). -/
theorem State.runCommand_badLength {s : State} {n : Nat} {e : CommandError} {payload : List Word}
    {rest : List (Option CommandError)} {effect : State → State} (hb : s.busy = none)
    (hc : s.block.constructed = true) (hl : payload.length ≠ n) :
    s.runCommand (needConstructed s.block :: needLength n e payload :: rest) effect = .next (s.raise e) := by
  apply State.runCommand_error hb
  rw [(needConstructed_eq_none s.block).2 hc, firstError_none, needLength, if_neg hl, firstError_some]

/-- On a constructed block a command of a wrong length ends in the error of its length check (R75, R211, R212). -/
theorem exec_command_badLength {s : State} (hb : s.busy = none) (hc : s.block.constructed = true) (p : List Word) :
    (p.length ≠ 64 → exec (.setImageFlat p) s = .next (s.raise .invalidSize)) ∧
      (p.length ≠ 8 → exec (.setImagePacked p) s = .next (s.raise .invalidSize)) ∧
      (p.length ≠ 1 → exec (.clear p) s = .next (s.raise (.rejected .badLength))) ∧
      (p.length ≠ 0 → exec (.stop p) s = .next (s.raise (.rejected .badLength))) ∧
      (p.length ≠ 0 → exec (.readBuffer p) s = .next (s.raise (.rejected .badLength))) := by
  simp only [exec, execSetImageFlat, execSetImagePacked, execClear, execStop, execReadBuffer]
  refine ⟨?_, ?_, ?_, ?_, ?_⟩ <;> exact State.runCommand_badLength hb hc

/-- Eight words of which one is no byte are REJECTED (R133, R212). -/
theorem exec_setImagePacked_highBits {s : State} {payload : List Word} (hb : s.busy = none)
    (hc : s.block.constructed = true) (hl : payload.length = 8) (hw : ∃ w ∈ payload, 256 ≤ w.toNat) :
    exec (.setImagePacked payload) s = .next (s.raise (.rejected .packedHighBits)) := by
  have hp : packedHighBits payload = true := by
    rw [← Bool.not_eq_false, packedHighBits_eq_false_iff]
    simpa using hw
  show execSetImagePacked payload s = _
  exact State.runCommand_error hb (by simp [needConstructed, hc, needLength, hl, needPayload, hp])

/-- Settles O13: before CONSTRUCT the first check fails, after it the length check or the payload check. -/
theorem rejectedCommandsChangeNothing : Obligations.RejectedCommandsChangeNothing := by
  intro s payload hb
  refine ⟨fun hc => ?_, fun hc => ?_⟩
  · rw [← State.raise_rejected s .notConstructed]
    exact exec_command_notConstructed hb hc payload
  · obtain ⟨-, -, hclear, hstop, hread⟩ := exec_command_badLength hb hc payload
    simp only [State.raise_rejected] at hclear hstop hread
    refine ⟨hclear, hstop, hread, fun hl hw => ?_⟩
    rw [exec_setImagePacked_highBits hb hc hl hw, State.raise_rejected]

/-! ### The commands that return INVALID_SIZE -/

/-- From `s` to `t` no response of status INVALID_SIZE was returned (R77). -/
def NoInvalidSize (s t : State) : Prop := ∀ data, t.outputs ≠ s.outputs ++ [1 :: data]

theorem noInvalidSize_of_silent {s t : State} (h : t.outputs = s.outputs) : NoInvalidSize s t := by
  intro data
  simp [h]

theorem noInvalidSize_of_status {s t : State} {status : Word} {data : List Word}
    (h : t.outputs = s.outputs ++ [status :: data]) (hne : status ≠ 1) : NoInvalidSize s t := by
  intro data' ho
  obtain ⟨heq, -⟩ : status = 1 ∧ data = data' := by simpa [h] using ho
  exact hne heq

theorem State.raise_rejected_noInvalidSize (s : State) (reason : RejectReason) :
    NoInvalidSize s (s.raise (.rejected reason)) :=
  noInvalidSize_of_status (s.raise_outputs _) (by simp [CommandError.status])

theorem State.respond_ok_noInvalidSize (s : State) (b : Block) (data : List Word) :
    NoInvalidSize s (({ s with block := b }).respond .ok data) :=
  noInvalidSize_of_status (State.respond_outputs _ _ _) (by decide)

theorem State.replaceBuffer_noInvalidSize (s : State) (v : Rows) (startScan : Bool) :
    NoInvalidSize s (s.replaceBuffer v startScan) := by
  obtain ⟨-, -, -, -, -, -, -, -, hsilent | hok⟩ := s.replaceBuffer_frame v startScan
  · exact noInvalidSize_of_silent hsilent
  · exact noInvalidSize_of_status hok (by decide)

/-- An instruction that is encoded as a micro-operation word answers nothing (R100, R179). -/
theorem exec_outputs_of_encode {i : Instr} {s t : State} {w : BitVec 16} (h : exec i s = .next t)
    (hw : i.wellFormed = true) (he : encode i = .microOp w) : t.outputs = s.outputs :=
  exec_microOp_outputs (by simpa [he, decode] using decodeOfEncode i hw) h

/-- An instruction returns INVALID_SIZE only if it is a SET_IMAGE_* of a wrong length (R211). -/
theorem exec_noInvalidSize_or_wrongLength {i : Instr} {s t : State} (h : exec i s = .next t) :
    NoInvalidSize s t ∨
      (∃ p, i = .setImageFlat p ∧ p.length ≠ 64) ∨ (∃ p, i = .setImagePacked p ∧ p.length ≠ 8) := by
  cases i with
  | construct p =>
    obtain ⟨-, ⟨r, rfl⟩ | ⟨-, -, -, rfl⟩⟩ := exec_construct_next h
    exacts [.inl (s.raise_rejected_noInvalidSize r), .inl (s.respond_ok_noInvalidSize _ [])]
  | setImageFlat p =>
    obtain ⟨-, ⟨r, rfl⟩ | ⟨hl, -⟩ | ⟨-, -, rfl⟩⟩ := exec_setImageFlat_next h
    exacts [.inl (s.raise_rejected_noInvalidSize r), .inr (.inl ⟨p, rfl, hl⟩),
      .inl (s.replaceBuffer_noInvalidSize _ true)]
  | setImagePacked p =>
    obtain ⟨-, ⟨r, rfl⟩ | ⟨hl, -⟩ | ⟨-, -, -, rfl⟩⟩ := exec_setImagePacked_next h
    exacts [.inl (s.raise_rejected_noInvalidSize r), .inr (.inr ⟨p, rfl, hl⟩),
      .inl (s.replaceBuffer_noInvalidSize _ true)]
  | clear p =>
    obtain ⟨-, ⟨r, rfl⟩ | ⟨-, -, rfl⟩⟩ := exec_clear_next h
    exacts [.inl (s.raise_rejected_noInvalidSize r), .inl (s.replaceBuffer_noInvalidSize _ false)]
  | stop p =>
    obtain ⟨-, ⟨r, rfl⟩ | ⟨-, -, rfl⟩⟩ := exec_stop_next h
    exacts [.inl (s.raise_rejected_noInvalidSize r), .inl (s.respond_ok_noInvalidSize _ [])]
  | readBuffer p =>
    obtain ⟨-, ⟨r, rfl⟩ | ⟨-, -, rfl⟩⟩ := exec_readBuffer_next h
    exacts [.inl (s.raise_rejected_noInvalidSize r), .inl (s.respond_ok_noInvalidSize s.block _)]
  | pinWrite _ _ | pushByte _ | latch | presentRow _ _ | scanPoll | scanWrite _ =>
    exact .inl (noInvalidSize_of_silent (exec_outputs_of_encode h rfl rfl))

/-- Settles O12: the length check is the first that fails, and no other check or effect returns that status. -/
theorem wrongImageLengthIsInvalidSize : Obligations.WrongImageLengthIsInvalidSize := by
  refine ⟨fun s payload hb hc => ?_, fun s t i data h ho => ?_⟩
  · obtain ⟨hflat, hpacked, -⟩ := exec_command_badLength hb hc payload
    rw [State.raise_invalidSize] at hflat hpacked
    exact ⟨hflat, hpacked⟩
  · exact (exec_noInvalidSize_or_wrongLength h).resolve_left fun hn => hn data ho

/-! ### What the cascade's outputs show -/

/-- Pin writes that never drive STCP high leave the cascade's outputs as they were (R220; log 12). -/
theorem State.pinWrites_q {l : List (Pin × Level)} (h : (.stcp, true) ∉ l) (s : State) :
    (s.pinWrites l).cascade.q = s.cascade.q := by
  induction l generalizing s with
  | nil => rfl
  | cons e l ih =>
    obtain ⟨he, hl⟩ := not_or.1 (mt List.mem_cons.2 h)
    rw [State.pinWrites_cons, ih hl, State.pinWrite_cascade, Cascade.observe_q, if_neg]
    rintro ⟨hp, hv, -⟩
    exact he (Prod.ext hp hv).symm

/-- Of a row's writes only the last drives STCP high (R104). -/
theorem stcp_high_notMem_rowWrites_take (sel c : Byte) {k : Nat} (hk : k ≤ 49) :
    (.stcp, true) ∉ (rowWrites sel c).take k := by
  have hsplit : rowWrites sel c = (byteWrites sel ++ byteWrites c ++ [(.stcp, false)]) ++ [(.stcp, true)] := by
    simp [rowWrites, latchWrites, pulse]
  rw [hsplit, List.take_append_of_le_length (by simpa using hk)]
  intro hmem
  obtain (hsel | hc) | hlow : ((.stcp, true) ∈ byteWrites sel ∨ (.stcp, true) ∈ byteWrites c) ∨
      (Pin.stcp, true) = (.stcp, false) := by simpa using List.mem_of_mem_take hmem
  · exact byteWrites_fst_ne_stcp hsel rfl
  · exact byteWrites_fst_ne_stcp hc rfl
  · cases hlow

/-- Settles O24: sixteen shifts fill the stages with the frame, and the outputs change only at the last write, which
latches it. -/
theorem outputsShowLatchedFrame : Obligations.OutputsShowLatchedFrame := by
  intro s r b
  refine ⟨⟨_, exec_presentRow r b s, ?_, ?_⟩, fun k hk => ?_⟩
  · rw [State.pinWrites_row, selector]
  · rw [State.pinWrites_row, selector]
  · rw [← rowWrites_eq_ofFn]
    exact State.pinWrites_q (stcp_high_notMem_rowWrites_take _ b hk) s

/-! ### The loss of power -/

/-- A loss of power that no command in progress holds off is the HOST's step (R224; log 13). -/
theorem fetchInput_powerCycle {s : State} {k : Nat} {rest : List Input} (hi : s.inputs = .powerCycle k :: rest)
    (hk : s.busy = none ∨ k = 0) : fetchInput s = .done ({ s with inputs := rest }).powerCycle := by
  obtain hb | rfl := hk
  · simp [fetchInput, hb, hi]
  · cases hb : s.busy <;> simp [fetchInput, hb, hi]

/-- Settles O36: the step is the loss of power, on the state that the turn left. -/
theorem powerCycleIsPowerUp : Obligations.PowerCycleIsPowerUp := by
  intro s s' k rest hs hi hk
  obtain ⟨-, -, -, -, hbusy, hout, -, huop⟩ := hs.same
  have hf : fetch s = .done ({ s' with inputs := rest }).powerCycle := by
    rw [fetch_of_hostTurn hs, fetchInput_powerCycle hi (hbusy ▸ hk)]
  refine ⟨({ s' with inputs := rest }).powerCycle, by simp [step, hf], rfl, rfl, rfl, rfl, rfl, hout, ?_⟩
  simp [State.powerCycle, State.reset, huop]

end Sys2Proof.Machine
end

section
/-! PROOFS. Reset and hazards (70_reset_and_hazards.md R240, R247): what power-up fixes, and an image set while the
engine drains inside a row. -/

namespace Sys2Proof.Machine

/-! ### Power-up -/

/-- Settles O47: no row is complete and none is in flight. -/
theorem resetMeetsTraceShape : Obligations.ResetMeetsTraceShape := Block.traceOk_of_empty rfl rfl rfl

/-- Settles O48: cancel, restart_pending and mpc are INV5's, and the other elements R240 gives outright. -/
theorem resetIsPowerUp : Obligations.ResetIsPowerUp := by
  obtain ⟨hm, hx, hr⟩ := Block.inv_powerUp.inv5 rfl
  exact ⟨rfl, rfl, rfl, rfl, hx, hr, hm⟩

/-! ### An image set while DRAINING -/

/-- A command that changes only the block and answers gives the HOST nothing to do. -/
theorem EngineAlone.of_sameOutside {s t : State} (ha : EngineAlone s) (h : SameOutside s t) : EngineAlone t := by
  obtain ⟨-, -, hinputs, hendless, hbusy, -, -, -, -, huop⟩ := h
  simpa only [EngineAlone, hinputs, hendless, hbusy, huop] using ha

/-- StartScanIfIdle starts no second engine while one drains: the restart is left pending and the sequencer stays
where it is (R177, R247). -/
theorem ScanStarted.of_draining {b b' : Block} (h : ScanStarted b b') (hl : b.lifecycle = some .draining) :
    b'.lifecycle = some .restarting ∧ b'.mpc = b.mpc := by
  obtain ⟨hscanning, -, hdraining, -⟩ := h
  obtain ⟨he, hx, hr, -, hm⟩ := hdraining (Block.scanState_of_lifecycle hl) (Block.engActive_of_lifecycle hl)
  refine ⟨Block.lifecycle_eq_some_iff.2 ?_, hm⟩
  rw [hscanning, he, hx, hr, Block.cancel_of_lifecycle hl]
  rfl

/-- What keeps the frame in flight and the sequencer's place keeps the rest of the row. -/
theorem SamePinSide.restOfRow {b b' : Block} (h : SamePinSide b b') (hm : b'.mpc = b.mpc) :
    b'.writesLeft = b.writesLeft ∧ b'.restOfRow = b.restOfRow := by
  obtain ⟨-, -, -, -, -, -, -, hsel, hcol, -⟩ := h
  simp only [Block.restOfRow, Block.writesLeft, hsel, hcol, hm, and_self]

/-- Inside a row the writes still to come are those from the one `mpc` stands for (R172, R182). -/
theorem Block.writesLeft_of_mpc_ne_zero {b : Block} (hm : b.mpc ≠ 0) : b.writesLeft = 51 - b.mpc.val :=
  if_neg fun h => hm (Fin.ext h)

/-- A RESTARTING engine at a boundary that tests `cancel` restarts the scan at row 0 (R175). -/
theorem step_engineAlone_restart {s : State} (ha : EngineAlone s) (hc : s.block.constructed = true)
    (hl : s.block.lifecycle = some .restarting) (hm : s.block.mpc = 0)
    (hp : polls s.params.cancelPoll s.block.row = true) :
    ∃ v, runSteps 1 s = .next v ∧ v.block.lifecycle = some .scanning ∧ v.block.row = 0 ∧ v.block.mpc = 0 ∧
      v.block.trace = s.block.trace ∧ v.block.buf = s.block.buf := by
  have he : s.block.engActive = true := Block.engActive_of_lifecycle hl
  have hx : s.block.cancel = true := Block.cancel_of_lifecycle hl
  have hrestart : step s = .next { s with block := s.block.onCancel } := by
    rw [step_engineAlone ha hc he, Block.scanOp_of_mpc_zero hm, exec_scanPoll_cancel hc he hm hp hx]
  exact ⟨{ s with block := s.block.onCancel }, by simp only [runSteps, hrestart], Block.onCancel_lifecycle hl hx,
    s.block.onCancel_row, s.block.onCancel_mpc.trans hm, s.block.onCancel_trace, s.block.onCancel_buf⟩

/-- A RESTARTING engine alone, polling at every boundary, completes the row in flight, and its next poll restarts the
scan at row 0 (R175, R182). -/
theorem runSteps_restart {s : State} (ha : EngineAlone s) (hmode : s.params.cancelPoll = .perRow)
    (hc : s.block.constructed = true) (hl : s.block.lifecycle = some .restarting) :
    ∃ v, runSteps (s.block.writesLeft + 1) s = .next v ∧ v.block.lifecycle = some .scanning ∧ v.block.row = 0 ∧
      v.block.mpc = 0 ∧ v.block.trace = s.block.trace ++ s.block.restOfRow ∧ v.block.buf = s.block.buf := by
  obtain ⟨u, hrun, hran, hum, -⟩ := runSteps_restOfRow ha hc (Block.engActive_of_lifecycle hl)
  have humode : u.params.cancelPoll = .perRow := (congrArg Params.cancelPoll hran.params).trans hmode
  obtain ⟨v, hrestart, hscanning, hrow, hmpc, htrace, hbuf⟩ := step_engineAlone_restart hran.alone
    (hran.constructed.trans hc) (hran.lifecycle.trans hl) hum ((polls_iff _ _).2 (.inl humode))
  exact ⟨v, (runSteps_add 1 hrun).trans hrestart, hscanning, hrow, hmpc, htrace.trans hran.trace, hbuf.trans hran.buf⟩

/-- Settles O53: the image leaves a restart pending and the row in flight as it was; the engine completes that row,
and its next poll restarts the scan, the new image in the buffer. -/
theorem restartWhileDraining : Obligations.RestartWhileDraining := by
  intro s words ha hmode hatomic hc hl hm hlen hbyte
  obtain ⟨t, hexec, hrows, hstarted, hpins, -, hout⟩ :=
    setImagePackedReplacesImage s words ha.2.1 hatomic hc hlen hbyte
  obtain ⟨hrestarting, htm⟩ := hstarted.of_draining hl
  obtain ⟨hleft, hrest⟩ := hpins.restOfRow htm
  obtain ⟨htc, -, -, -, -, -, -, -, -, httrace⟩ := hpins
  have htmode : t.params.cancelPoll = .perRow := (congrArg Params.cancelPoll hout.2.1).trans hmode
  obtain ⟨u, hrun, hscanning, hrow, hmpc, htrace, hbuf⟩ :=
    runSteps_restart (ha.of_sameOutside hout) htmode (htc.trans hc) hrestarting
  rw [hleft, Block.writesLeft_of_mpc_ne_zero hm] at hrun
  refine ⟨t, u, hexec, hrestarting, ?_, hscanning, hrow, hmpc, ?_, fun i => ?_⟩
  · rwa [show 52 - s.block.mpc.val = 51 - s.block.mpc.val + 1 by omega]
  · rw [htrace, httrace, hrest, Block.restOfRow_eq, Block.writesLeft_of_mpc_ne_zero hm,
      show 50 - (51 - s.block.mpc.val) = s.block.mpc.val - 1 by omega]
  · simpa only [Block.bufRead, hbuf] using hrows i

end Sys2Proof.Machine
end
